-- ==== Sys2Proof/Word.lean ====
section
/-! DEFINITION. The word types of the block: 32-bit register and bus words, bytes and byte strings (rules R12 to R14). -/

namespace Sys2Proof

/-- A 32-bit register, command or bus word (R20, R53, R80). -/
abbrev Word := BitVec 32

/-- One byte of the buffer RAM or of a byte string (R14, R52). -/
abbrev Byte := BitVec 8

/-- A finite sequence of bytes (R14). -/
abbrev Bytes := List Byte

end Sys2Proof
end

