-- ==== Sys2Proof/Machine/Ports.lean ====
section
/-! DEFINITION. What crosses the block's ports (rules R53, R94 to R98): host transactions and their responses, the beats of
the PRF port, and the events that make up a run. -/

namespace Sys2Proof.Machine

/-- The size of a host access: 1, 2 or 4 bytes (R53). -/
inductive Size where
  | byte
  | half
  | word
deriving DecidableEq, Repr

/-- A host access (R53): `Read(addr, size)` or `Write(addr, size, data)`. The datum of a write of `size` bytes is the low
`8 · size` bits of `data` (WellFormed asks that the others be 0). -/
inductive Transaction where
  | read (addr : Word) (size : Size)
  | write (addr : Word) (size : Size) (data : Word)
deriving DecidableEq, Repr

/-- The bus response (R53). -/
inductive Resp where
  | okay
  | error
deriving DecidableEq, Repr

/-- What a host access returns: the response, and the data of a read (0 for a write). -/
structure BusRsp where
  resp : Resp
  data : Word
deriving DecidableEq, Repr

/-- `prf_req_kind`: 0 a key byte, 1 a message byte (R96). -/
inductive BeatKind where
  | key
  | message
deriving DecidableEq, Repr

/-- One beat of the PRF request channel (R96): `prf_req_alg`, `prf_req_kind`, `prf_req_byte`, `prf_req_last`. -/
structure ReqBeat where
  alg : Byte
  kind : BeatKind
  byte : Byte
  last : Bool
deriving DecidableEq, Repr

/-- One beat of the PRF response channel (R96): `prf_rsp_byte`, `prf_rsp_last`. -/
structure RspBeat where
  byte : Byte
  last : Bool
deriving DecidableEq, Repr

/-- A PRF request `(alg, key, msg)` (R95). -/
structure PrfRequest where
  alg : Byte
  key : Bytes
  msg : Bytes
deriving DecidableEq, Repr

/-- One event of a run: which agent moves next and with what (R5, R130). An event whose agent has no enabled step, and an
edge at which no beat transfers, changes nothing. -/
inductive Event where
  /-- The host performs a transaction (R64). -/
  | bus (t : Transaction)
  /-- The engine takes its one enabled step (R130). -/
  | engine
  /-- An edge with `prf_req_ready` = 1: the beat the engine drives, if any, transfers (R96). -/
  | reqReady
  /-- The PRF core answers the request it has taken in full (R95, R99). -/
  | prfAnswer
  /-- An edge with `prf_rsp_valid` = 1: the next beat of the core's answer, if the engine takes it, transfers (R96, R98). -/
  | rspValid
  /-- An edge that samples `rst_n` = 0 (R210). -/
  | resetLow
  /-- An edge that samples `rst_n` = 1 (R210). -/
  | resetHigh
  /-- The PRF core breaks its contract with a response beat that is not of its answer (R99). No run of the model holds it. -/
  | foreignBeat (b : RspBeat)
deriving DecidableEq, Repr

end Sys2Proof.Machine
end

