-- ==== Sys2Proof/Syntax.lean ====
section
/-! DEFINITION. The commands: one constructor per row of spec/opcode_table.json (rules R3, R81).
A command carries no operands: they are read from the registers and the buffer RAM (R84). -/

namespace Sys2Proof

/-- The five commands of R81. -/
inductive Instr where
  | deriveBefore
  | deriveAfter
  | deriveMiddle
  | counterKdf
  | encodeCounter
deriving DecidableEq, Repr

end Sys2Proof
end

