-- ==== Sys2Proof/WellFormed.lean ====
section
/-! DEFINITION. Well-formed terms: commands, command words (rules R80 to R82) and host transactions (rule R53). -/

namespace Sys2Proof

/-- A command has no operand fields (R80, R84), so each is well-formed. -/
def Instr.wellFormed : Instr → Bool
  | .deriveBefore => true
  | .deriveAfter => true
  | .deriveMiddle => true
  | .counterKdf => true
  | .encodeCounter => true

/-- The command words R82 does not call illegal: RSVD, bits 31:8, is 0 and OPCODE, bits 7:0, is 0x01 to 0x05. -/
def wellFormedWord (v : Word) : Bool :=
  v.extractLsb' 8 24 == 0#24 && decide (1 ≤ (v.extractLsb' 0 8).toNat) && decide ((v.extractLsb' 0 8).toNat ≤ 5)

/-- The bound on the datum of an access: an unsigned value of `8 · size` bits (R53). -/
def Machine.Size.dataBound : Machine.Size → Nat
  | .byte => 0x100
  | .half => 0x10000
  | .word => 0x100000000

/-- A write carries a datum of `8 · size` bits (R53). -/
def Machine.Transaction.wellFormed : Machine.Transaction → Bool
  | .read _ _ => true
  | .write _ z d => decide (d.toNat < z.dataBound)

end Sys2Proof
end

