-- ==== Sys2Proof/Decode.lean ====
section
/-! DEFINITION. The command word (rules R80 to R83): decoder, total on every 32-bit word, and encoder. -/

namespace Sys2Proof

/-- Why a word is illegal (R82). Both are recorded as ILLEGAL_COMMAND. -/
inductive DecodeError where
  /-- RSVD, bits 31:8, is not 0. -/
  | reservedBitsSet
  /-- OPCODE is 0x00 or one of 0x06 to 0xFF. -/
  | unassignedOpcode
deriving DecidableEq, Repr

/-- OPCODE, bits 7:0 (R80). -/
def opcodeField (v : Word) : Byte := v.extractLsb' 0 8

/-- RSVD, bits 31:8 (R80). -/
def rsvdField (v : Word) : BitVec 24 := v.extractLsb' 8 24

/-- The opcode map of R81. -/
def opcodeMap : List (Byte × Instr) :=
  [(0x01, .deriveBefore), (0x02, .deriveAfter), (0x03, .deriveMiddle), (0x04, .counterKdf), (0x05, .encodeCounter)]

/-- The row of the opcode map with this opcode. -/
def lookupOpcode (op : Byte) : List (Byte × Instr) → Option Instr
  | [] => none
  | (c, i) :: rows => if c = op then some i else lookupOpcode op rows

/-- The command a word selects, or why it is illegal (R81, R82). -/
def decode (v : Word) : Except DecodeError Instr :=
  if rsvdField v = 0 then
    match lookupOpcode (opcodeField v) opcodeMap with
    | some i => .ok i
    | none => .error .unassignedOpcode
  else .error .reservedBitsSet

/-- The word of a command: the `match` column of R81. -/
def encode : Instr → Word
  | .deriveBefore => 0x00000001
  | .deriveAfter => 0x00000002
  | .deriveMiddle => 0x00000003
  | .counterKdf => 0x00000004
  | .encodeCounter => 0x00000005

/-- The command read from a word given by the opcode table's bit numbering, bit 0 the least significant; the bits from
`nbits` up are 0. Every command is one 32-bit word (R93), so a longer number is no command. -/
def decodeTableWord (nbits w : Nat) : Option Instr :=
  if w % 2 ^ nbits < 2 ^ 32 then
    match decode (BitVec.ofNat 32 (w % 2 ^ nbits)) with
    | .ok i => some i
    | .error _ => none
  else none

end Sys2Proof
end

