-- ==== Sys2Proof/Config.lean ====
section
/-! DEFINITION. What a build of the block fixes (rule R10) and the free values (rules R95, R211, R212).
The parameters are plain data, legal by construction, so that a statement over every state holds for every build. -/

namespace Sys2Proof.Config

/-- One algorithm id that a build registers beside 0x01 and 0x02, with its digest length in bytes (R10, R85). -/
structure RegistryRow where
  alg : Byte
  digestBytes : Nat
deriving DecidableEq, Repr

/-- One known point of the parameter `PRF` (R10): on this request the PRF core returns these digest bytes. -/
structure PrfPoint where
  alg : Byte
  key : Bytes
  msg : Bytes
  digest : Bytes
deriving DecidableEq, Repr

/-- The parameters of a build (R10), constant for the machine.
`blockPage` gives BLOCK_BASE as a multiple of 0x0002_0000, `opmemLess1` gives OPMEM_BYTES as 4 · (opmemLess1 + 1), so every
value is a legal one; `registry` lists the ids open to the build (R85, I8); `prfPoints` lists what is known of `PRF`. -/
structure Build where
  blockPage : BitVec 15
  opmemLess1 : BitVec 14
  registry : List RegistryRow
  prfPoints : List PrfPoint
deriving DecidableEq, Repr

/-- BLOCK_BASE, the host-bus address of offset 0 (R10). -/
def Build.blockBase (b : Build) : Nat := b.blockPage.toNat * 0x20000

/-- OPMEM_BYTES, the size of the buffer RAM (R10). -/
def Build.opmemBytes (b : Build) : Nat := 4 * (b.opmemLess1.toNat + 1)

/-- The build State.reset stands in: OPMEM_BYTES = 16384, the default of R10, no id registered beside 0x01 and 0x02.
DESIGN CHOICE (log 1): BLOCK_BASE is 0; unsafe for a claim about State.reset that rests on it. -/
def defaultBuild : Build := { blockPage := 0, opmemLess1 := 4095, registry := [], prfPoints := [] }

/-- FREE VALUE (log 5): byte `k` of `PRF(alg, key, msg)` (R10, R95, I6). Nothing constrains it; safe. -/
opaque prfByte : Byte → Bytes → Bytes → Nat → Byte

/-- FREE VALUE (log 3): what the buffer RAM byte at an offset holds after power-on (R211, I4). Nothing constrains it; safe. -/
opaque powerOnByte : Nat → Byte

/-- FREE VALUE (log 4): the k-th byte left in an abandoned output region (R212, I5). Nothing constrains it; safe. -/
opaque resetByte : Nat → Byte

end Sys2Proof.Config
end

