-- ==== Sys2Proof/Machine/State.lean ====
section
/-! DEFINITION. The state of the block (rules R20 to R47), with the PRF port's transfers (rules R95 to R98), the inputs still
to come and the parameters of the build; and the state right after reset (rule R210). -/

namespace Sys2Proof.Machine

/-- The machine stops with a fault: never. The block has no trap and no stuck state of its own (R180): every error is a
rejection, a refused access or an ERROR response, and each of these is a next state. Safe. -/
inductive Fault where
deriving DecidableEq, Repr

/-- Why a step has no meaning. -/
inductive Refusal where
  /-- Raised by an arm of `exec` whose command has no meaning yet. Safe. -/
  | notModelled (mnemonic : String)
  /-- Raised by the event `foreignBeat`: the PRF core broke its contract, and "a model does not admit it" (R99, I7). Unsafe
  for a platform whose PRF core can do so (log 6). -/
  | prfContract
deriving DecidableEq, Repr

/-- The error codes of R89; code 0 is the absence of one. -/
inductive ErrCode where
  | unsupportedHashAlgorithm
  | unsupportedCounterWidth
  | iterationCountTooHigh
  | outputExceedsAccumulator
  | regionOutOfBounds
  | regionOverlap
  | illegalCommand
deriving DecidableEq, Repr

/-- A supported counter width (R86). -/
inductive Width where
  | w8
  | w16
  | w24
  | w32
deriving DecidableEq, Repr

/-- STATUS (R24). Its reserved bits are RAZ/WI, so the fields are all it holds. -/
structure Status where
  busy : Bool
  done : Bool
  err : Bool
  accessErr : Bool
  errCode : BitVec 4
deriving DecidableEq, Repr

/-- IRQ_EN (R29). Its reserved bits are RAZ/WI, so the fields are all it holds. -/
structure IrqEn where
  doneIe : Bool
  errIe : Bool
  accessIe : Bool
deriving DecidableEq, Repr

/-- A region: the register pair (P_OFF, P_LEN) (R16, R33 to R37). -/
structure Region where
  off : Word
  len : Word
deriving DecidableEq, Repr

/-- The record of a command in progress (R40). `n` is a 64-bit and `i` a 65-bit number there; neither wraps (R44). -/
structure Run where
  op : Instr
  alg : Byte
  key : Bytes
  pre : Bytes
  post : Bytes
  w : Width
  n : Nat
  outOff : Word
  outLen : Word
  i : Nat
  waiting : Bool
  acc : Bytes
deriving DecidableEq, Repr

/-- The engine's internal state (R40). -/
inductive Engine where
  | idle
  | run (r : Run)
deriving DecidableEq, Repr

/-- The PRF port between the engine and the PRF core (R95 to R98), at the grain of beats. -/
structure PrfPort where
  /-- Beats of the request in progress that have not transferred; the first is the one driven. -/
  req : List ReqBeat
  /-- Beats the PRF core has taken of a request it has not answered. -/
  core : List ReqBeat
  /-- Beats of the PRF core's answer that have not transferred; the first is the one driven. -/
  rsp : List RspBeat
  /-- Bytes of the answer the engine has taken. -/
  got : Bytes
  /-- The engine has taken the answer's last beat. -/
  gotLast : Bool
deriving DecidableEq, Repr

/-- The port with nothing in progress. -/
def PrfPort.quiet : PrfPort := { req := [], core := [], rsp := [], got := [], gotLast := false }

/-- The written bytes of the buffer RAM by offset (R52). Canonical form: offsets strictly rising. An unlisted offset has no
written byte (it still holds its power-on draw, R211), which no entry can equal, so equal memories are equal lists. -/
abbrev Memory := List Host.Cell

/-- The state of the machine. -/
structure State where
  /-- The parameters of the build (R10), CAPS among them (R22); constant. -/
  build : Config.Build
  /-- STATUS (R24 to R28). -/
  status : Status
  /-- IRQ_EN (R29). -/
  irqEn : IrqEn
  /-- ALG_ID.ALG (R30). -/
  algId : Byte
  /-- CTR_WIDTH.W (R31). -/
  ctrWidth : Byte
  /-- N_ITER_LO (R32). -/
  nIterLo : Word
  /-- N_ITER_HI (R32). -/
  nIterHi : Word
  /-- KEY_OFF, KEY_LEN (R33). -/
  key : Region
  /-- FIXA_OFF, FIXA_LEN (R34). -/
  fixa : Region
  /-- FIXB_OFF, FIXB_LEN (R35). -/
  fixb : Region
  /-- FIXC_OFF, FIXC_LEN (R36). -/
  fixc : Region
  /-- OUT_OFF, OUT_LEN (R37). -/
  out : Region
  /-- N_USED_LO (R38). -/
  nUsedLo : Word
  /-- N_USED_HI (R38). -/
  nUsedHi : Word
  /-- The buffer RAM (R52). -/
  ram : Memory
  /-- The engine's internal state (R40). -/
  engine : Engine
  /-- The PRF port (R95 to R98). -/
  port : PrfPort
  /-- `rst_n` as sampled at the last edge (R210). -/
  rstN : Bool
  /-- The events still to come, oldest first (R64, R130): the model's own. -/
  events : List Event
  /-- What the last host transaction returned (R53); none if it was not performed: the model's own. -/
  busRsp : Option BusRsp
  /-- How many bytes of abandoned output regions have been drawn (R212): the model's own. -/
  draws : Nat
deriving DecidableEq, Repr

/-- STATUS after reset: 0 (R20, R210). -/
def Status.reset : Status := { busy := false, done := false, err := false, accessErr := false, errCode := 0 }

/-- The machine right after power-on and reset (R20, R210): every CSR at its table value, the engine Idle, `rst_n` back to 1,
no byte of the buffer RAM written (R211). No event is to come until the host brings one (log 2). -/
def State.reset : State where
  build := Config.defaultBuild
  status := Status.reset
  irqEn := { doneIe := false, errIe := false, accessIe := false }
  algId := 0
  ctrWidth := 8
  nIterLo := 0
  nIterHi := 0
  key := { off := 0, len := 0 }
  fixa := { off := 0, len := 0 }
  fixb := { off := 0, len := 0 }
  fixc := { off := 0, len := 0 }
  out := { off := 0, len := 0 }
  nUsedLo := 0
  nUsedHi := 0
  ram := []
  engine := .idle
  port := PrfPort.quiet
  rstN := true
  events := []
  busRsp := none
  draws := 0

end Sys2Proof.Machine
end

