-- ==== Sys2Proof/Machine/Encoder.lean ====
section
/-! DEFINITION. Byte strings of numbers (rule R14) and the counter encoder (rules R110 to R112, R114). -/

namespace Sys2Proof.Machine

/-- The counter width in bits (R86). -/
def Width.bits : Width → Nat
  | .w8 => 8
  | .w16 => 16
  | .w24 => 24
  | .w32 => 32

/-- The length of the counter field in bytes, `w / 8` (R110). -/
def Width.bytes : Width → Nat
  | .w8 => 1
  | .w16 => 2
  | .w24 => 3
  | .w32 => 4

/-- The supported width that a CTR_WIDTH value names, if any (R86). -/
def Width.ofField? (v : Byte) : Option Width :=
  if v = 8 then some .w8
  else if v = 16 then some .w16
  else if v = 24 then some .w24
  else if v = 32 then some .w32
  else none

/-- `be(N, v)`: the N-byte big-endian string of `v mod 2^(8N)` (R14). -/
def bigEndian (count v : Nat) : Bytes :=
  (List.range count).map fun k => BitVec.ofNat 8 (v / 2 ^ (8 * (count - 1 - k)))

/-- `encode(w, i)`: the counter field (R110). -/
def encodeCounterField (w : Width) (i : Nat) : Bytes := bigEndian w.bytes (i % 2 ^ w.bits)

end Sys2Proof.Machine
end

