-- ==== Sys2Proof/Machine/Flags.lean ====
section
/-! DEFINITION. STATUS, ERR_CODE and the interrupt: every computation of a flag (rules R24 to R29, R42, R89, R185, R187). -/

namespace Sys2Proof.Machine

/-- The number recorded in ERR_CODE (R89). -/
def ErrCode.code : ErrCode → BitVec 4
  | .unsupportedHashAlgorithm => 1
  | .unsupportedCounterWidth => 2
  | .iterationCountTooHigh => 3
  | .outputExceedsAccumulator => 4
  | .regionOutOfBounds => 5
  | .regionOverlap => 6
  | .illegalCommand => 7

/-- A bit as a number. -/
def bitValue (b : Bool) : Nat := if b then 1 else 0

/-- STATUS as the 32-bit word a host reads (R24). -/
def Status.word (f : Status) : Word :=
  BitVec.ofNat 32 (bitValue f.busy + 2 * bitValue f.done + 4 * bitValue f.err + 8 * bitValue f.accessErr
    + 0x100 * f.errCode.toNat)

/-- STATUS after a host write of `v`: bits 1, 2 and 3 are write-1-to-clear, bit 2 clears ERR_CODE too (R24, R26 to R28, R187). -/
def Status.cleared (f : Status) (v : Word) : Status :=
  { f with
    done := f.done && !v.getLsbD 1
    err := f.err && !v.getLsbD 2
    errCode := if v.getLsbD 2 then 0 else f.errCode
    accessErr := f.accessErr && !v.getLsbD 3 }

/-- STATUS after a rejection with code `c` (R185). -/
def Status.rejected (f : Status) (c : ErrCode) : Status :=
  { f with err := true, errCode := c.code, done := false }

/-- STATUS after an acceptance (R128). -/
def Status.accepted (f : Status) : Status :=
  { f with busy := true, done := false, err := false, errCode := 0 }

/-- STATUS after Complete (R134). -/
def Status.completed (f : Status) : Status := { f with busy := false, done := true }

/-- STATUS after a refused host access (R189). -/
def Status.refused (f : Status) : Status := { f with accessErr := true }

/-- IRQ_EN as the 32-bit word a host reads (R29). -/
def IrqEn.word (e : IrqEn) : Word :=
  BitVec.ofNat 32 (bitValue e.doneIe + 2 * bitValue e.errIe + 4 * bitValue e.accessIe)

/-- IRQ_EN after a host write of `v` (R29). -/
def IrqEn.ofWord (v : Word) : IrqEn :=
  { doneIe := v.getLsbD 0, errIe := v.getLsbD 1, accessIe := v.getLsbD 2 }

/-- The level of the interrupt output (R42, R190). -/
def State.irq (s : State) : Bool :=
  (s.status.done && s.irqEn.doneIe) || (s.status.err && s.irqEn.errIe) || (s.status.accessErr && s.irqEn.accessIe)

end Sys2Proof.Machine
end

