-- ==== Sys2Proof/Machine/Ops.lean ====
section
/-! DEFINITION. The named operations over memory and registers (rules R15, R52, R58, R128, R185, R189). -/

namespace Sys2Proof.Machine

/-- What a byte that nothing has written holds in the list: no written byte (R211). -/
def Memory.unlisted : Option Byte := none

/-- The written byte at an offset, if any. -/
def Memory.find : Memory → Nat → Option Byte
  | [], _ => Memory.unlisted
  | (b, v) :: m, a => if b = a then some v else Memory.find m a

/-- The memory with byte `v` written at offset `a`. -/
def Memory.store : Memory → Nat → Byte → Memory
  | [], a, v => [(a, v)]
  | (b, u) :: m, a, v =>
    if a < b then (a, v) :: (b, u) :: m
    else if a = b then (a, v) :: m
    else (b, u) :: Memory.store m a v

/-- The memory with a byte string written from offset `a` on (R15). -/
def Memory.storeBytes : Memory → Nat → Bytes → Memory
  | m, _, [] => m
  | m, a, v :: vs => Memory.storeBytes (Memory.store m a v) (a + 1) vs

/-- The canonical form: offsets strictly rising. -/
abbrev Memory.wf (m : Memory) : Prop := m.Pairwise fun c d => c.1 < d.1

/-- RAM[a] (R52): the byte written there last, or the power-on draw (R211; log 3). -/
def State.ramByte (s : State) (a : Nat) : Byte := (Memory.find s.ram a).getD (Config.powerOnByte a)

/-- `MemRead(off, n)` (R15, R59). -/
def State.memRead (s : State) (off n : Nat) : Bytes := (List.range n).map fun k => s.ramByte (off + k)

/-- `MemWrite(off, |v|, v)` (R15, R59). -/
def State.memWrite (s : State) (off : Nat) (v : Bytes) : State := { s with ram := Memory.storeBytes s.ram off v }

/-- A byte string as a little-endian number (R58). -/
def littleEndianValue : Bytes → Nat
  | [] => 0
  | b :: bs => b.toNat + 256 * littleEndianValue bs

/-- The `n` bytes of a number, little-endian (R58). -/
def littleEndianBytes : Nat → Nat → Bytes
  | 0, _ => []
  | n + 1, v => BitVec.ofNat 8 v :: littleEndianBytes n (v / 256)

/-- The response of the transaction being performed (R53). -/
def State.respond (s : State) (r : Resp) (data : Word) : State := { s with busRsp := some { resp := r, data := data } }

/-- The state with other events to come. -/
def State.withEvents (s : State) (es : List Event) : State := { s with events := es }

/-- A refused host access sets ACCESS_ERR and nothing else (R189). -/
def State.refuseAccess (s : State) : State := { s with status := s.status.refused }

/-- `raise Error(code)`: the block's one way to take an exception. It records the rejection in STATUS and changes nothing
else (R15, R185); there is no vector, no saved state and no return (R180, R188). -/
def State.raiseError (s : State) (c : ErrCode) : State := { s with status := s.status.rejected c }

/-- Acceptance of a command (R128): STATUS, N_USED unless the command is ENCODE_COUNTER (R38, C7), and the Run record. -/
def State.accept (s : State) (r : Run) : State :=
  { s with
    status := s.status.accepted
    nUsedLo := if r.op = .encodeCounter then s.nUsedLo else BitVec.ofNat 32 r.n
    nUsedHi := if r.op = .encodeCounter then s.nUsedHi else BitVec.ofNat 32 (r.n / 2 ^ 32)
    engine := .run r }

/-- What every CMD write of a legal word does (R121): refused while busy (R189), else rejected with the first failing
check's code or accepted. -/
def State.submit (s : State) (plan : Except ErrCode Run) : State :=
  if s.status.busy then s.refuseAccess
  else
    match plan with
    | .error c => s.raiseError c
    | .ok r => s.accept r

end Sys2Proof.Machine
end

