-- ==== Sys2Proof/Machine/Prf.lean ====
section
/-! DEFINITION. The PRF registry and the PRF (rules R6, R10, R11, R85), and the beats of the PRF port (rules R96 to R98). -/

namespace Sys2Proof.Machine

/-- The digest length in bytes that the build's rows give an id, if they register it. A row of length 0 registers nothing
(R10: every `some h` has h > 0). -/
def openDigestBytes (alg : Byte) : List Config.RegistryRow → Option Nat
  | [] => none
  | r :: rows => if r.alg = alg ∧ 0 < r.digestBytes then some r.digestBytes else openDigestBytes alg rows

/-- `REGISTRY(alg)`: the digest length in bits, a positive multiple of 8 (R10, R85). -/
def registry (b : Config.Build) (alg : Byte) : Option Nat :=
  if alg = 0x00 then none
  else if alg = 0x01 then some 256
  else if alg = 0x02 then some 384
  else (openDigestBytes alg b.registry).map (8 * ·)

/-- `D(alg)`, the digest length in bytes (R11); 0 for an id that is not registered, for which no request is issued (R95). -/
def digestBytes (b : Config.Build) (alg : Byte) : Nat :=
  match registry b alg with
  | some h => h / 8
  | none => 0

/-- The known point of `PRF` at a request, if the build lists one. -/
def knownDigest (alg : Byte) (key msg : Bytes) : List Config.PrfPoint → Option Bytes
  | [] => none
  | p :: ps => if p.alg = alg ∧ p.key = key ∧ p.msg = msg then some p.digest else knownDigest alg key msg ps

/-- Byte `k` of `PRF(alg, key, msg)` (R10): the known byte, else the free value (log 5). -/
def prfByteAt (b : Config.Build) (alg : Byte) (key msg : Bytes) (k : Nat) : Byte :=
  match knownDigest alg key msg b.prfPoints with
  | some d => d.getD k (Config.prfByte alg key msg k)
  | none => Config.prfByte alg key msg k

/-- `PRF(alg, key, msg)`: total, deterministic, of D(alg) bytes (R10, R95). -/
def prf (b : Config.Build) (alg : Byte) (key msg : Bytes) : Bytes :=
  (List.range (digestBytes b alg)).map (prfByteAt b alg key msg)

/-- The message beats of a request, the last one marked (R97). -/
def messageBeats (alg : Byte) : Bytes → List ReqBeat
  | [] => []
  | b :: bs => { alg := alg, kind := .message, byte := b, last := bs.isEmpty } :: messageBeats alg bs

/-- The beats of a request: the key bytes, then the message bytes (R97). -/
def requestBeats (q : PrfRequest) : List ReqBeat :=
  q.key.map (fun b => { alg := q.alg, kind := .key, byte := b, last := false }) ++ messageBeats q.alg q.msg

/-- The beats of a response, the last one marked (R98). -/
def responseBeats : Bytes → List RspBeat
  | [] => []
  | b :: bs => { byte := b, last := bs.isEmpty } :: responseBeats bs

/-- The bytes of one kind among the beats taken. -/
def beatBytes (kind : BeatKind) (beats : List ReqBeat) : Bytes := (beats.filter (·.kind = kind)).map (·.byte)

/-- The request the PRF core reads from the beats it has taken, once the last one has arrived (R97). -/
def assembleRequest (beats : List ReqBeat) : Option PrfRequest :=
  match beats.getLast? with
  | some b => if b.last then some { alg := b.alg, key := beatBytes .key beats, msg := beatBytes .message beats } else none
  | none => none

/-- `prf_req_valid` (R96): 1 from Issue until the request's last beat has transferred, without a gap between its beats.
DESIGN CHOICE (log 16): R96 and R97 do not say whether the engine may hold it at 0 before the last beat. -/
def State.prfReqValid (s : State) : Bool := !s.port.req.isEmpty

/-- `prf_req_alg`, `prf_req_kind`, `prf_req_byte`, `prf_req_last`: the beat driven while `prf_req_valid` = 1 (R96). -/
def State.prfReqBeat (s : State) : Option ReqBeat := s.port.req.head?

/-- `prf_rsp_ready`: 1 while the engine waits for a response (R98): its request has left in full and the response has not
arrived in full. DEDUCED (log 7). -/
def State.prfRspReady (s : State) : Bool :=
  match s.engine with
  | .idle => false
  | .run r => r.waiting && s.port.req.isEmpty && !s.port.gotLast

/-- An edge with `prf_req_ready` = 1: the beat driven transfers to the PRF core (R96). -/
def State.takeRequestBeat (s : State) : State :=
  match s.port.req with
  | [] => s
  | b :: bs => { s with port := { s.port with req := bs, core := s.port.core ++ [b] } }

/-- The PRF core's step: it answers the request it has taken in full with `PRF(alg, key, msg)` (R95, R98, R99). -/
def State.prfAnswer (s : State) : State :=
  match assembleRequest s.port.core with
  | none => s
  | some q => { s with port := { s.port with core := [], rsp := responseBeats (prf s.build q.alg q.key q.msg) } }

/-- An edge with `prf_rsp_valid` = 1: the answer's next beat transfers if `prf_rsp_ready` = 1 (R96, R98). -/
def State.takeResponseBeat (s : State) : State :=
  match s.port.rsp with
  | [] => s
  | b :: bs =>
    if s.prfRspReady then
      { s with port := { s.port with rsp := bs, got := s.port.got ++ [b.byte], gotLast := b.last } }
    else s

end Sys2Proof.Machine
end

