-- ==== Sys2Proof/Machine/Operands.lean ====
section
/-! DEFINITION. The operands of the commands (rules R16, R84 to R88, R120, R160) and the checks on them (rules R122 to R127,
R161, R165). -/

namespace Sys2Proof.Machine

/-- `N = N_ITER_HI · 2^32 + N_ITER_LO` (R32, R87). -/
def State.nIter (s : State) : Nat := s.nIterHi.toNat * 2 ^ 32 + s.nIterLo.toNat

/-- `Bytes(P)` (R16, R59). -/
def State.regionBytes (s : State) (p : Region) : Bytes := s.memRead p.off.toNat p.len.toNat

/-- A region is in bounds: `OFF + LEN ≤ OPMEM_BYTES`, without wrap (R16, R126). -/
def Region.inBounds (b : Config.Build) (p : Region) : Bool := decide (p.off.toNat + p.len.toNat ≤ b.opmemBytes)

/-- Two regions overlap, without wrap; a region of length 0 overlaps nothing (R16). -/
def Region.overlaps (p q : Region) : Bool :=
  decide (0 < p.len.toNat) && decide (0 < q.len.toNat)
    && decide (p.off.toNat < q.off.toNat + q.len.toNat) && decide (q.off.toNat < p.off.toNat + p.len.toNat)

/-- The checks of a derivation in the order of R183 and, if all pass, the Run record of R128. `iterations h` is the
iteration count for a digest of `h` bits, `inputs` the input regions, `pre` and `post` the fixed message parts. -/
def derivationPlan (s : State) (op : Instr) (iterations : Nat → Nat) (inputs : List Region) (pre post : Bytes) :
    Except ErrCode Run :=
  match registry s.build s.algId with
  | none => .error .unsupportedHashAlgorithm
  | some h =>
    match Width.ofField? s.ctrWidth with
    | none => .error .unsupportedCounterWidth
    | some w =>
      if 2 ^ w.bits - 1 < iterations h then .error .iterationCountTooHigh
      else if iterations h * (h / 8) < s.out.len.toNat then .error .outputExceedsAccumulator
      else if !(inputs ++ [s.out]).all (Region.inBounds s.build) then .error .regionOutOfBounds
      else if inputs.any s.out.overlaps then .error .regionOverlap
      else
        .ok
          { op := op, alg := s.algId, key := s.regionBytes s.key, pre := pre, post := post, w := w, n := iterations h,
            outOff := s.out.off, outLen := s.out.len, i := 1, waiting := false, acc := [] }

end Sys2Proof.Machine
end

