-- ==== Sys2Proof/Machine/Assembler.lean ====
section
/-! DEFINITION. COUNTER_KDF at the CMD write: the standard fixed-input assembler (rules R91, R160 to R167). -/

namespace Sys2Proof.Machine

/-- `l = 8 · OUT_LEN`, the requested size in bits, exact (R162). -/
def State.requestedBits (s : State) : Nat := 8 * s.out.len.toNat

/-- `n = ceil(l / h) = (l + h − 1) div h`, exact (R162). -/
def assemblerCount (l h : Nat) : Nat := (l + h - 1) / h

/-- The standard fixed input `F = label ‖ 0x00 ‖ context ‖ contextRand ‖ be(2, l)` (R91, R163, R164). -/
def State.fixedInput (s : State) : Bytes :=
  s.regionBytes s.fixa ++ [0x00] ++ s.regionBytes s.fixb ++ s.regionBytes s.fixc ++ bigEndian 2 s.requestedBits

/-- The checks and the Run record of COUNTER_KDF (R161, R165, R167). -/
def counterKdfPlan (s : State) : Except ErrCode Run :=
  derivationPlan s .counterKdf (assemblerCount s.requestedBits) [s.key, s.fixa, s.fixb, s.fixc] [] s.fixedInput

/-- COUNTER_KDF (R167). -/
def execCounterKdf (s : State) : Host.Outcome State Fault Refusal := .next (s.submit (counterKdfPlan s))

end Sys2Proof.Machine
end

