-- ==== Sys2Proof/Machine/CounterEncoder.lean ====
section
/-! DEFINITION. ENCODE_COUNTER at the CMD write (rule R113). -/

namespace Sys2Proof.Machine

/-- The checks and the Run record of ENCODE_COUNTER (R111, R113). -/
def encodeCounterPlan (s : State) : Except ErrCode Run :=
  match Width.ofField? s.ctrWidth with
  | none => .error .unsupportedCounterWidth
  | some w =>
    if s.build.opmemBytes < s.out.off.toNat + w.bytes then .error .regionOutOfBounds
    else
      .ok
        { op := .encodeCounter, alg := s.algId, key := [], pre := encodeCounterField w s.nIter, post := [], w := w, n := 0,
          outOff := s.out.off, outLen := BitVec.ofNat 32 w.bytes, i := 1, waiting := false, acc := [] }

/-- ENCODE_COUNTER (R113). -/
def execEncodeCounter (s : State) : Host.Outcome State Fault Refusal := .next (s.submit (encodeCounterPlan s))

end Sys2Proof.Machine
end

