-- ==== Sys2Proof/Machine/Derive.lean ====
section
/-! DEFINITION. DERIVE_BEFORE, DERIVE_AFTER and DERIVE_MIDDLE at the CMD write (rules R120 to R128, R131, R137 to R139).
The rest of a command is the engine's steps, in Engine.lean. -/

namespace Sys2Proof.Machine

/-- The checks and the Run record of DERIVE_BEFORE (R137). -/
def deriveBeforePlan (s : State) : Except ErrCode Run :=
  derivationPlan s .deriveBefore (fun _ => s.nIter) [s.key, s.fixa] [] (s.regionBytes s.fixa)

/-- The checks and the Run record of DERIVE_AFTER (R138). -/
def deriveAfterPlan (s : State) : Except ErrCode Run :=
  derivationPlan s .deriveAfter (fun _ => s.nIter) [s.key, s.fixa] (s.regionBytes s.fixa) []

/-- The checks and the Run record of DERIVE_MIDDLE (R139). -/
def deriveMiddlePlan (s : State) : Except ErrCode Run :=
  derivationPlan s .deriveMiddle (fun _ => s.nIter) [s.key, s.fixa, s.fixb] (s.regionBytes s.fixa) (s.regionBytes s.fixb)

/-- DERIVE_BEFORE (R137). -/
def execDeriveBefore (s : State) : Host.Outcome State Fault Refusal := .next (s.submit (deriveBeforePlan s))

/-- DERIVE_AFTER (R138). -/
def execDeriveAfter (s : State) : Host.Outcome State Fault Refusal := .next (s.submit (deriveAfterPlan s))

/-- DERIVE_MIDDLE (R139). -/
def execDeriveMiddle (s : State) : Host.Outcome State Fault Refusal := .next (s.submit (deriveMiddlePlan s))

end Sys2Proof.Machine
end

