-- ==== Sys2Proof/Machine/Dispatch.lean ====
section
/-! DEFINITION. What a CMD write of a command's word does, one arm per command (rules R81, R121). -/

namespace Sys2Proof.Machine

def exec (i : Instr) (s : State) : Host.Outcome State Fault Refusal :=
  match i with
  | .deriveBefore => Sys2Proof.Machine.execDeriveBefore s
  | .deriveAfter => Sys2Proof.Machine.execDeriveAfter s
  | .deriveMiddle => Sys2Proof.Machine.execDeriveMiddle s
  | .counterKdf => Sys2Proof.Machine.execCounterKdf s
  | .encodeCounter => Sys2Proof.Machine.execEncodeCounter s

end Sys2Proof.Machine
end

