-- ==== Sys2Proof/Machine/Registers.lean ====
section
/-! DEFINITION. The register map (rule R20), the value a host reads from each register (rules R21 to R39) and the effect of a
host write to each register but CMD (rules R21 to R39, R46, R189). -/

namespace Sys2Proof.Machine

/-- The 21 registers of R20. -/
inductive Csr where
  | id | caps | cmd | status | irqEn | algId | ctrWidth | nIterLo | nIterHi
  | keyOff | keyLen | fixaOff | fixaLen | fixbOff | fixbLen | fixcOff | fixcLen | outOff | outLen
  | nUsedLo | nUsedHi
deriving DecidableEq, Repr

/-- A register's offset in the CSR window (R20). -/
def Csr.offset : Csr → Nat
  | .id => 0x000
  | .caps => 0x004
  | .cmd => 0x008
  | .status => 0x00C
  | .irqEn => 0x010
  | .algId => 0x014
  | .ctrWidth => 0x018
  | .nIterLo => 0x01C
  | .nIterHi => 0x020
  | .keyOff => 0x024
  | .keyLen => 0x028
  | .fixaOff => 0x02C
  | .fixaLen => 0x030
  | .fixbOff => 0x034
  | .fixbLen => 0x038
  | .fixcOff => 0x03C
  | .fixcLen => 0x040
  | .outOff => 0x044
  | .outLen => 0x048
  | .nUsedLo => 0x04C
  | .nUsedHi => 0x050

/-- The registers, in the order of the map. -/
def csrMap : List Csr :=
  [.id, .caps, .cmd, .status, .irqEn, .algId, .ctrWidth, .nIterLo, .nIterHi, .keyOff, .keyLen, .fixaOff, .fixaLen,
    .fixbOff, .fixbLen, .fixcOff, .fixcLen, .outOff, .outLen, .nUsedLo, .nUsedHi]

/-- The register of a list at an offset, if any. -/
def findCsr (o : Nat) : List Csr → Option Csr
  | [] => none
  | r :: rs => if r.offset = o then some r else findCsr o rs

/-- The register at an offset of the CSR window; none where the offset is reserved (R39). -/
def Csr.ofOffset (o : Nat) : Option Csr := findCsr o csrMap

/-- ID: MAGIC "KBK", VERSION 0x01 (R21). -/
def idValue : Word := 0x4B424B01

/-- An 8-bit field in bits 7:0, the rest RAZ (R30, R31). -/
def zeroExtendByte (v : Byte) : Word := v.setWidth 32

/-- The value a host reads from a register (R21 to R38). -/
def State.csrValue (s : State) : Csr → Word
  | .id => idValue
  | .caps => BitVec.ofNat 32 s.build.opmemBytes
  | .cmd => 0
  | .status => s.status.word
  | .irqEn => s.irqEn.word
  | .algId => zeroExtendByte s.algId
  | .ctrWidth => zeroExtendByte s.ctrWidth
  | .nIterLo => s.nIterLo
  | .nIterHi => s.nIterHi
  | .keyOff => s.key.off
  | .keyLen => s.key.len
  | .fixaOff => s.fixa.off
  | .fixaLen => s.fixa.len
  | .fixbOff => s.fixb.off
  | .fixbLen => s.fixb.len
  | .fixcOff => s.fixc.off
  | .fixcLen => s.fixc.len
  | .outOff => s.out.off
  | .outLen => s.out.len
  | .nUsedLo => s.nUsedLo
  | .nUsedHi => s.nUsedHi

/-- The value a host reads at a legal offset of the CSR window: reserved offsets read 0 (R39). -/
def State.csrRead (s : State) (o : Nat) : Word :=
  match Csr.ofOffset o with
  | some r => s.csrValue r
  | none => 0

/-- An operand register takes its new value, or the write is refused while busy (R46, R189). -/
def State.writeOperand (s t : State) : State := if s.status.busy then s.refuseAccess else t

/-- A host write of `v` to a register other than CMD, whose writes Bus.lean handles. Read-only registers ignore it (R46). -/
def State.writeCsr (s : State) (r : Csr) (v : Word) : State :=
  match r with
  | .id => s
  | .caps => s
  | .cmd => s
  | .status => { s with status := s.status.cleared v }
  | .irqEn => { s with irqEn := IrqEn.ofWord v }
  | .algId => s.writeOperand { s with algId := v.extractLsb' 0 8 }
  | .ctrWidth => s.writeOperand { s with ctrWidth := v.extractLsb' 0 8 }
  | .nIterLo => s.writeOperand { s with nIterLo := v }
  | .nIterHi => s.writeOperand { s with nIterHi := v }
  | .keyOff => s.writeOperand { s with key := { s.key with off := v } }
  | .keyLen => s.writeOperand { s with key := { s.key with len := v } }
  | .fixaOff => s.writeOperand { s with fixa := { s.fixa with off := v } }
  | .fixaLen => s.writeOperand { s with fixa := { s.fixa with len := v } }
  | .fixbOff => s.writeOperand { s with fixb := { s.fixb with off := v } }
  | .fixbLen => s.writeOperand { s with fixb := { s.fixb with len := v } }
  | .fixcOff => s.writeOperand { s with fixc := { s.fixc with off := v } }
  | .fixcLen => s.writeOperand { s with fixc := { s.fixc with len := v } }
  | .outOff => s.writeOperand { s with out := { s.out with off := v } }
  | .outLen => s.writeOperand { s with out := { s.out with len := v } }
  | .nUsedLo => s
  | .nUsedHi => s

end Sys2Proof.Machine
end

