-- ==== Sys2Proof/Machine/Bus.lean ====
section
/-! DEFINITION. Host transactions: the address map (rule R51), legality (rules R54 to R57), the buffer window (rules R55, R58,
R63), the CSR window (rules R39, R46, R54) and the CMD write (rules R82, R121). -/

namespace Sys2Proof.Machine

/-- The size of an access in bytes (R53). -/
def Size.bytes : Size → Nat
  | .byte => 1
  | .half => 2
  | .word => 4

/-- What an access names (R51, R54 to R56). -/
inductive Target where
  /-- A register or reserved offset of the CSR window. -/
  | csr (offset : Nat)
  /-- The buffer RAM byte at this buffer offset and the ones after it. -/
  | buffer (offset : Nat)
  /-- An illegal access. -/
  | illegal
deriving DecidableEq, Repr

/-- The offset `A − BLOCK_BASE` of a host address in the block's 128 KiB; none if the address does not reach it (R51).
BLOCK_BASE is a multiple of 128 KiB (R10), so the address is in the block when its page is, and its offset is the remainder. -/
def Build.offsetOf? (b : Config.Build) (addr : Word) : Option Nat :=
  if addr.toNat / 0x20000 = b.blockPage.toNat then some (addr.toNat % 0x20000) else none

/-- The host address of an offset of the block (R51, R70). -/
def Build.address (b : Config.Build) (offset : Nat) : Word := BitVec.ofNat 32 (b.blockBase + offset)

/-- What an access of a size at an offset names (R54 to R56). -/
def Build.target (b : Config.Build) (o : Nat) (z : Size) : Target :=
  if o < 0x1000 then
    if z = .word ∧ o % 4 = 0 then .csr o else .illegal
  else if 0x10000 ≤ o ∧ o + z.bytes ≤ 0x10000 + b.opmemBytes ∧ (o - 0x10000) % z.bytes = 0 then .buffer (o - 0x10000)
  else .illegal

/-- A host write of word `v` to CMD (R121): a legal word is its command's business, busy or not; an illegal one is refused
while busy (R189) and else rejected with code 7 (R82). -/
def State.writeCmd (s : State) (v : Word) : Host.Outcome State Fault Refusal :=
  match decode v with
  | .ok i => exec i s
  | .error _ => .next (s.submit (.error .illegalCommand))

/-- A legal write to the CSR window (R39, R46, R54). -/
def State.writeCsrWindow (s : State) (o : Nat) (v : Word) : Host.Outcome State Fault Refusal :=
  match Csr.ofOffset o with
  | some .cmd => s.writeCmd v
  | some r => .next (s.writeCsr r v)
  | none => .next s

/-- A legal read of the buffer window (R55, R58, R63). -/
def State.readBuffer (s : State) (b : Nat) (z : Size) : State :=
  if s.status.busy then s.refuseAccess.respond .okay 0
  else s.respond .okay (BitVec.ofNat 32 (littleEndianValue (s.memRead b z.bytes)))

/-- A legal write to the buffer window (R55, R58, R63). -/
def State.writeBuffer (s : State) (b : Nat) (z : Size) (v : Word) : State :=
  if s.status.busy then s.refuseAccess else s.memWrite b (littleEndianBytes z.bytes v.toNat)

/-- A read at an offset of the block (R54 to R57). -/
def State.readOffset (s : State) (o : Nat) (z : Size) : State :=
  match Build.target s.build o z with
  | .csr o => s.respond .okay (s.csrRead o)
  | .buffer b => s.readBuffer b z
  | .illegal => s.respond .error 0

/-- A write at an offset of the block (R54 to R57). -/
def State.writeOffset (s : State) (o : Nat) (z : Size) (v : Word) : Host.Outcome State Fault Refusal :=
  match Build.target s.build o z with
  | .csr o => (s.respond .okay 0).writeCsrWindow o v
  | .buffer b => .next ((s.respond .okay 0).writeBuffer b z v)
  | .illegal => .next (s.respond .error 0)

/-- The block performs nothing for this transaction and returns nothing. -/
def State.noResponse (s : State) : State := { s with busRsp := none }

/-- One host transaction (R53, R64): performed if it reaches the block (R51) and the block is not held in reset (R210). -/
def State.transact (s : State) (t : Transaction) : Host.Outcome State Fault Refusal :=
  if s.rstN then
    match t with
    | .read addr z =>
      match Build.offsetOf? s.build addr with
      | some o => .next (s.readOffset o z)
      | none => .next s.noResponse
    | .write addr z v =>
      match Build.offsetOf? s.build addr with
      | some o => s.writeOffset o z v
      | none => .next s.noResponse
  else .next s.noResponse

end Sys2Proof.Machine
end

