-- ==== Sys2Proof/Machine/Engine.lean ====
section
/-! DEFINITION. The engine's steps: Issue, Receive and Complete (rules R129 to R136). -/

namespace Sys2Proof.Machine

/-- `M_i = pre ‖ encode(w, i) ‖ post` (R90, R131). -/
def Run.message (r : Run) (i : Nat) : Bytes := r.pre ++ encodeCounterField r.w i ++ r.post

/-- The PRF request of iteration `i` (R132). -/
def Run.request (r : Run) (i : Nat) : PrfRequest := { alg := r.alg, key := r.key, msg := r.message i }

/-- What Complete writes (R134): the encoded counter, or the first `out_len` bytes of the accumulator (R133). -/
def Run.result (r : Run) : Bytes := if r.op = .encodeCounter then r.pre else r.acc.take r.outLen.toNat

/-- Issue (R130): the engine starts sending the request of iteration `i`. -/
def State.issue (s : State) (r : Run) : State :=
  { s with
    engine := .run { r with waiting := true }
    port := { s.port with req := requestBeats (r.request r.i) } }

/-- Receive (R130): the digest is appended and the counter advances. -/
def State.receive (s : State) (r : Run) : State :=
  { s with
    engine := .run { r with waiting := false, i := r.i + 1, acc := r.acc ++ s.port.got }
    port := { s.port with got := [], gotLast := false } }

/-- Complete (R134): the output is written, BUSY falls and DONE rises, in one step. -/
def State.complete (s : State) (r : Run) : State :=
  { s with
    ram := Memory.storeBytes s.ram r.outOff.toNat r.result
    status := s.status.completed
    engine := .idle }

/-- The engine's three steps (R130). -/
inductive EngineMove where
  | issue
  | receive
  | complete
deriving DecidableEq, Repr

/-- Which step of the engine is enabled, if one is (R130). -/
def State.engineMove (s : State) : Option EngineMove :=
  match s.engine with
  | .idle => none
  | .run r =>
    if r.waiting then if s.port.gotLast then some .receive else none
    else if r.i ≤ r.n then some .issue
    else some .complete

/-- The engine's one enabled step, if it has one (R130). -/
def State.engineStep (s : State) : State :=
  match s.engine with
  | .idle => s
  | .run r =>
    if r.waiting then if s.port.gotLast then s.receive r else s
    else if r.i ≤ r.n then s.issue r
    else s.complete r

end Sys2Proof.Machine
end

