-- ==== Sys2Proof/Machine/Reset.lean ====
section
/-! DEFINITION. The reset input (rules R210 to R213). -/

namespace Sys2Proof.Machine

/-- `count` draws for the bytes of an abandoned output region (R212; log 4). -/
def resetDraws (start count : Nat) : Bytes := (List.range count).map fun k => Config.resetByte (start + k)

/-- The buffer RAM through a reset: kept (R211), but for the output region of a command in progress, each byte of which holds
an unspecified value afterwards (R212). -/
def State.resetRam (s : State) : Memory :=
  match s.engine with
  | .idle => s.ram
  | .run r => Memory.storeBytes s.ram r.outOff.toNat (resetDraws s.draws r.outLen.toNat)

/-- The number of draws after a reset. -/
def State.resetDrawCount (s : State) : Nat :=
  match s.engine with
  | .idle => s.draws
  | .run r => s.draws + r.outLen.toNat

/-- An edge with `rst_n` = 0 (R210): every CSR takes its reset value, the engine is Idle, the PRF port is quiet and the PRF
core is reset with the block (R213). -/
def State.resetLow (s : State) : State :=
  { State.reset with
    build := s.build
    ram := s.resetRam
    draws := s.resetDrawCount
    rstN := false
    events := s.events }

/-- An edge with `rst_n` = 1 (R210). -/
def State.resetHigh (s : State) : State := { s with rstN := true }

end Sys2Proof.Machine
end

