-- ==== Sys2Proof/Machine/Events.lean ====
section
/-! DEFINITION. What each event does (rules R5, R130). -/

namespace Sys2Proof.Machine

/-- The step of an event's agent is enabled: the engine's by R130, the PRF core's when a beat of a request can transfer to it
(R96), when it has taken a request in full (R95) and when the engine takes a beat of its answer (R98). The host and `rst_n` may
always act; a foreign beat is no step of an agent (R99). -/
def State.enabled (s : State) (e : Event) : Bool :=
  match e with
  | .bus _ => true
  | .engine => s.engineMove.isSome
  | .reqReady => s.prfReqValid
  | .prfAnswer => (assembleRequest s.port.core).isSome
  | .rspValid => s.prfRspReady && !s.port.rsp.isEmpty
  | .resetLow => true
  | .resetHigh => true
  | .foreignBeat _ => false

/-- One event is performed. -/
def State.perform (s : State) (e : Event) : Host.Outcome State Fault Refusal :=
  match e with
  | .bus t => s.transact t
  | .engine => .next s.engineStep
  | .reqReady => .next s.takeRequestBeat
  | .prfAnswer => .next s.prfAnswer
  | .rspValid => .next s.takeResponseBeat
  | .resetLow => .next s.resetLow
  | .resetHigh => .next s.resetHigh
  | .foreignBeat _ => .refused .prfContract

/-- The oldest event leaves the list and is performed; with none to come, nothing happens (log 2). -/
def State.nextEvent (s : State) : Host.Outcome State Fault Refusal :=
  match s.events with
  | [] => .next s
  | e :: es => (s.withEvents es).perform e

/-- The event of a host writing a command word to CMD (R23). -/
def cmdWriteEvent (b : Config.Build) (v : Word) : Event := .bus (.write (Build.address b Csr.cmd.offset) .word v)

/-- The state with a CMD write of a table word as its next event, `rst_n` high (log 8). -/
def State.placeCommand (s : State) (nbits w : Nat) : State :=
  { s with rstN := true, events := cmdWriteEvent s.build (BitVec.ofNat 32 (w % 2 ^ nbits)) :: s.events }

end Sys2Proof.Machine
end

