-- ==== Sys2Proof/Machine/Step.lean ====
section
/-! DEFINITION. One step of the machine: the oldest event is performed (rules R5, R64, R130). -/

namespace Sys2Proof.Machine

/-- One step. The block fetches nothing (R4, R69): a command comes as a host's CMD write (R23). -/
def step (s : State) : Host.Outcome State Fault Refusal := s.nextEvent

/-- The state whose next step is the CMD write of the command word `w` (log 8). -/
def State.withFetchWord (s : State) (nbits w : Nat) : State := s.placeCommand nbits w

end Sys2Proof.Machine
end

