-- ==== Sys2Proof/Machine/HostProgram.lean ====
section
/-! DEFINITION. The syntax of host programs and its expansion into transactions (rules R100, R101). -/

namespace Sys2Proof.Machine

/-- The region register pairs that `region` names (R101). -/
inductive RegionName where
  | key | fixa | fixb | fixc | out
deriving DecidableEq, Repr

/-- P_OFF (R20). -/
def RegionName.offCsr : RegionName → Csr
  | .key => .keyOff
  | .fixa => .fixaOff
  | .fixb => .fixbOff
  | .fixc => .fixcOff
  | .out => .outOff

/-- P_LEN (R20). -/
def RegionName.lenCsr : RegionName → Csr
  | .key => .keyLen
  | .fixa => .fixaLen
  | .fixb => .fixbLen
  | .fixc => .fixcLen
  | .out => .outLen

/-- One line of a host program (R100, R101); `OFF` is an offset from BLOCK_BASE. -/
inductive Line where
  | sw (off : Nat) (v : Word)
  | sh (off : Nat) (v : BitVec 16)
  | sb (off : Nat) (v : Byte)
  | lw (off : Nat)
  | lb (off : Nat)
  | cmd (name : Instr)
  | region (p : RegionName) (off len : Word)
  | setn (v : BitVec 64)
  | fill (b : Nat) (bytes : Bytes)
  /-- One poll; the host repeats the line until `pollDone`. -/
  | waitIdle
  | clearStatus
deriving DecidableEq, Repr

/-- `Write(BLOCK_BASE + OFF, 4, V)` (R100). -/
def swAt (b : Config.Build) (off : Nat) (v : Word) : Transaction := .write (Build.address b off) .word v

/-- `Write(BLOCK_BASE + OFF, 1, V)` (R100). -/
def sbAt (b : Config.Build) (off : Nat) (v : Byte) : Transaction := .write (Build.address b off) .byte (v.setWidth 32)

/-- `fill` at an aligned buffer offset: words for the full groups of four bytes, then bytes (R101). -/
def fillWords (b : Config.Build) (off : Nat) : Bytes → List Transaction
  | h0 :: h1 :: h2 :: h3 :: rest =>
    swAt b (0x10000 + off) (BitVec.ofNat 32 (littleEndianValue [h0, h1, h2, h3])) :: fillWords b (off + 4) rest
  | rest => (List.zipIdx rest).map fun e => sbAt b (0x10000 + off + e.2) e.1

/-- `fill` at a buffer offset that is no multiple of 4: bytes alone (R101). -/
def fillBytes (b : Config.Build) (off : Nat) (bytes : Bytes) : List Transaction :=
  (List.zipIdx bytes).map fun e => sbAt b (0x10000 + off + e.2) e.1

/-- The transactions of a line (R100, R101). -/
def Line.expand (b : Config.Build) : Line → List Transaction
  | .sw off v => [swAt b off v]
  | .sh off v => [.write (Build.address b off) .half (v.setWidth 32)]
  | .sb off v => [sbAt b off v]
  | .lw off => [.read (Build.address b off) .word]
  | .lb off => [.read (Build.address b off) .byte]
  | .cmd name => [swAt b Csr.cmd.offset (encode name)]
  | .region p off len => [swAt b p.offCsr.offset off, swAt b p.lenCsr.offset len]
  | .setn v => [swAt b Csr.nIterLo.offset (v.setWidth 32), swAt b Csr.nIterHi.offset (v.extractLsb' 32 32)]
  | .fill off bytes => if off % 4 = 0 then fillWords b off bytes else fillBytes b off bytes
  | .waitIdle => [.read (Build.address b Csr.status.offset) .word]
  | .clearStatus => [swAt b Csr.status.offset 0x0000000E]

/-- The poll of `wait_idle` has read BUSY = 0 (R101). -/
def State.pollDone (s : State) : Bool :=
  match s.busRsp with
  | some rsp => !rsp.data.getLsbD 0
  | none => false

/-- The events of a program's lines, each `wait_idle` polled once. -/
def hostEvents (b : Config.Build) (lines : List Line) : List Event := (lines.flatMap (Line.expand b)).map .bus

end Sys2Proof.Machine
end

