-- ==== Sys2Proof/Machine/Fairness.lean ====
section
/-! DEFINITION. Infinite runs and the fairness premise (rule R226; log 17). -/

namespace Sys2Proof.Machine

/-- `x` is the infinite run in which the event `σ k` is performed in the state `x k`. Any order of events is one (R130). -/
def IsRun (σ : Nat → Event) (x : Nat → State) : Prop := ∀ k, step ((x k).withEvents [σ k]) = .next (x (k + 1))

/-- Weak fairness to an event: from no point on is it enabled for ever and never performed (R226). -/
def WeaklyFairTo (σ : Nat → Event) (x : Nat → State) (e : Event) : Prop :=
  ∀ k, (∀ j, k ≤ j → (x j).enabled e = true) → ∃ j, k ≤ j ∧ σ j = e

/-- The fairness premise of R226: an enabled engine step is eventually taken, and every outstanding request is eventually
answered, its beats taken and the beats of its answer delivered (log 17). -/
structure FairRun (σ : Nat → Event) (x : Nat → State) : Prop where
  run : IsRun σ x
  engine : WeaklyFairTo σ x .engine
  takes : WeaklyFairTo σ x .reqReady
  answers : WeaklyFairTo σ x .prfAnswer
  delivers : WeaklyFairTo σ x .rspValid

/-- How many of the first `k` events of a run are the engine's step `m`. -/
def movesBefore (σ : Nat → Event) (x : Nat → State) (m : EngineMove) : Nat → Nat
  | 0 => 0
  | k + 1 => movesBefore σ x m k + if σ k = .engine ∧ (x k).engineMove = some m then 1 else 0

end Sys2Proof.Machine
end

