-- ==== Sys2Proof/Safety.lean ====
section
/-! DEFINITION. The terms in which claims are made: the outputs the rules give a run, the invariant of the machine, what a
command leaves alone, and a schedule in which every agent does its part. -/

namespace Sys2Proof.Machine

/-- `d_i = PRF(alg, key, M_i)` (R132). -/
def Run.digest (b : Config.Build) (r : Run) (i : Nat) : Bytes := prf b r.alg r.key (r.message i)

/-- `d_1 ‖ d_2 ‖ ... ‖ d_k` (R133). -/
def Run.accumulated (b : Config.Build) (r : Run) (k : Nat) : Bytes :=
  (List.range k).flatMap fun j => r.digest b (j + 1)

/-- The bytes the rules leave at OUT_OFF (R113, R133, R134). -/
def Run.output (b : Config.Build) (r : Run) : Bytes :=
  if r.op = .encodeCounter then r.pre else (r.accumulated b r.n).take r.outLen.toNat

/-- The checks of a derivation pass (R122 to R127): `h` is the digest length in bits, `w` the width, `n` the iteration count. -/
structure State.Passes (s : State) (h : Nat) (w : Width) (n : Nat) (inputs : List Region) : Prop where
  registered : registry s.build s.algId = some h
  width : s.ctrWidth.toNat = w.bits
  count : n ≤ 2 ^ w.bits - 1
  outLen : s.out.len.toNat ≤ n * (h / 8)
  bounds : ∀ p ∈ s.out :: inputs, p.off.toNat + p.len.toNat ≤ s.build.opmemBytes
  disjoint : ∀ p ∈ inputs, ¬(0 < s.out.len.toNat ∧ 0 < p.len.toNat ∧ s.out.off.toNat < p.off.toNat + p.len.toNat
    ∧ p.off.toNat < s.out.off.toNat + s.out.len.toNat)

/-- The first check of a derivation that fails is the one with code `c` (R89, R183): those before it pass.
`iterations h` is the iteration count for a digest of `h` bits. -/
def State.FirstFailure (s : State) (iterations : Nat → Nat) (inputs : List Region) (c : BitVec 4) : Prop :=
  (registry s.build s.algId = none ∧ c = 1) ∨
  ∃ h, registry s.build s.algId = some h ∧
    ((s.ctrWidth.toNat ∉ [8, 16, 24, 32] ∧ c = 2) ∨
    (s.ctrWidth.toNat ∈ [8, 16, 24, 32] ∧
      ((2 ^ s.ctrWidth.toNat - 1 < iterations h ∧ c = 3) ∨
      (iterations h ≤ 2 ^ s.ctrWidth.toNat - 1 ∧
        ((iterations h * (h / 8) < s.out.len.toNat ∧ c = 4) ∨
        (s.out.len.toNat ≤ iterations h * (h / 8) ∧
          (((∃ p ∈ s.out :: inputs, s.build.opmemBytes < p.off.toNat + p.len.toNat) ∧ c = 5) ∨
          ((∀ p ∈ s.out :: inputs, p.off.toNat + p.len.toNat ≤ s.build.opmemBytes) ∧
            (∃ p ∈ inputs, 0 < s.out.len.toNat ∧ 0 < p.len.toNat ∧ s.out.off.toNat < p.off.toNat + p.len.toNat
              ∧ p.off.toNat < s.out.off.toNat + s.out.len.toNat) ∧ c = 6))))))))

/-- The state after a rejection with code `c` (R185). -/
def State.rejectedWith (s : State) (c : BitVec 4) : State :=
  { s with status := { s.status with err := true, errCode := c, done := false } }

/-- The state after a refused host access (R189). -/
def State.withAccessErr (s : State) : State := { s with status := { s.status with accessErr := true } }

/-- A legal access of the buffer window at buffer offset `b` (R55). -/
structure State.LegalBuffer (s : State) (a : Word) (z : Size) (b : Nat) : Prop where
  address : a.toNat = s.build.blockBase + 0x10000 + b
  inside : b + z.bytes ≤ s.build.opmemBytes
  aligned : b % z.bytes = 0

/-- STATUS after an acceptance (R128). -/
def State.busyStatus (s : State) : Status :=
  { busy := true, done := false, err := false, errCode := 0, accessErr := s.status.accessErr }

/-- The state once its oldest event has left the list. -/
def State.popped (s : State) : State := { s with events := s.events.tail }

/-- The state once its oldest event, a host transaction, has left the list and returned `r` with data `d`. -/
def State.answered (s : State) (r : Resp) (d : Word) : State :=
  { s with events := s.events.tail, busRsp := some { resp := r, data := d } }

/-- The input regions of a command (R84). -/
def State.inputRegions (s : State) : Instr → List Region
  | .deriveBefore => [s.key, s.fixa]
  | .deriveAfter => [s.key, s.fixa]
  | .deriveMiddle => [s.key, s.fixa, s.fixb]
  | .counterKdf => [s.key, s.fixa, s.fixb, s.fixc]
  | .encodeCounter => []

/-- The three commands of R137 to R139. -/
def isDerive : Instr → Bool
  | .deriveBefore => true
  | .deriveAfter => true
  | .deriveMiddle => true
  | .counterKdf => false
  | .encodeCounter => false

/-- Nothing has changed from `s` to `t` but STATUS, N_USED and the engine's internal state: the operand registers, IRQ_EN,
every byte of the buffer RAM and both ports are as they were. -/
structure State.SameInputs (s t : State) : Prop where
  build : t.build = s.build
  irqEn : t.irqEn = s.irqEn
  algId : t.algId = s.algId
  ctrWidth : t.ctrWidth = s.ctrWidth
  nIterLo : t.nIterLo = s.nIterLo
  nIterHi : t.nIterHi = s.nIterHi
  key : t.key = s.key
  fixa : t.fixa = s.fixa
  fixb : t.fixb = s.fixb
  fixc : t.fixc = s.fixc
  out : t.out = s.out
  bytes : ∀ a, t.ramByte a = s.ramByte a
  port : t.port = s.port
  rstN : t.rstN = s.rstN
  events : t.events = s.events
  busRsp : t.busRsp = s.busRsp
  draws : t.draws = s.draws

/-- The status flags agree with each other and with the engine (R25, R27, R40). -/
structure State.StatusOk (s : State) : Prop where
  busy_iff_run : s.status.busy = true ↔ s.engine ≠ .idle
  no_code_without_err : s.status.err = false → s.status.errCode = 0
  code_of_err : s.status.err = true → 1 ≤ s.status.errCode.toNat ∧ s.status.errCode.toNat ≤ 7
  done_or_err : ¬(s.status.done = true ∧ s.status.err = true)
  clear_while_busy : s.status.busy = true → s.status.done = false ∧ s.status.err = false

/-- The buffer RAM is in canonical form and lies within OPMEM_BYTES (R52). -/
structure State.MemoryOk (s : State) : Prop where
  wf : Memory.wf s.ram
  inside : ∀ c ∈ s.ram, c.1 < s.build.opmemBytes

/-- The record of the command in progress is one the rules reach (R40, R44, R128 to R133). -/
structure Run.Ok (b : Config.Build) (r : Run) : Prop where
  outInside : r.outOff.toNat + r.outLen.toNat ≤ b.opmemBytes
  started : 1 ≤ r.i
  bounded : r.i ≤ r.n + 1
  count : r.n ≤ 2 ^ r.w.bits - 1
  acc : r.acc = r.accumulated b (r.i - 1)
  encode : r.op = .encodeCounter → r.n = 0 ∧ r.pre.length = r.outLen.toNat
  derive : r.op ≠ .encodeCounter → registry b r.alg ≠ none ∧ r.outLen.toNat ≤ r.n * digestBytes b r.alg

/-- The PRF port carries the request of iteration `i`, in part taken by the PRF core (R96, R97). -/
def Run.Sending (r : Run) (p : PrfPort) : Prop :=
  p.core ++ p.req = requestBeats (r.request r.i) ∧ p.rsp = [] ∧ p.got = [] ∧ p.gotLast = false

/-- The PRF port carries the digest of iteration `i`, in part taken by the engine (R96, R98). -/
def Run.Receiving (b : Config.Build) (r : Run) (p : PrfPort) : Prop :=
  p.req = [] ∧ p.core = [] ∧
    ∃ rest, r.digest b r.i = p.got ++ rest ∧ p.rsp = responseBeats rest ∧ p.gotLast = rest.isEmpty

/-- The PRF port carries what the engine's state says it does. -/
def Engine.PortOk (b : Config.Build) (p : PrfPort) : Engine → Prop
  | .idle => p = PrfPort.quiet
  | .run r => if r.waiting then (r.i ≤ r.n ∧ (r.Sending p ∨ r.Receiving b p)) else p = PrfPort.quiet

/-- The invariant of the machine. -/
structure State.Inv (s : State) : Prop where
  status : s.StatusOk
  memory : s.MemoryOk
  run : ∀ r, s.engine = .run r → r.Ok s.build
  port : s.engine.PortOk s.build s.port
  held : s.rstN = false → s.engine = .idle ∧ s.status = Status.reset

/-- One iteration with every agent doing its part: the engine issues, each beat of the request transfers, the PRF core
answers, each beat of the response transfers, the engine receives (R130, R226). -/
def Run.round (b : Config.Build) (r : Run) (i : Nat) : List Event :=
  [Event.engine] ++ List.replicate (r.key.length + (r.message i).length) .reqReady ++ [.prfAnswer]
    ++ List.replicate (digestBytes b r.alg) .rspValid ++ [.engine]

/-- The rounds of iterations 1 to `k`. -/
def Run.rounds (b : Config.Build) (r : Run) (k : Nat) : List Event := (List.range k).flatMap fun j => r.round b (j + 1)

/-- A schedule in which every agent does its part from acceptance to Complete (R226). -/
def Run.schedule (b : Config.Build) (r : Run) : List Event := r.rounds b r.n ++ [.engine]

end Sys2Proof.Machine
end

