-- ==== Sys2Proof/Certificates/Slice0/Obligations.lean ====
section
/-! DEFINITION. The statements for the provers. Each docstring names the rule of spec/ it formalises. -/

open Sys2Proof Sys2Proof.Machine

/- ## The command word -/

/-- R81: the decoder reads a command from exactly its own word, and the five words are those of the opcode map. -/
def Obligations.DecodeAndEncodeAgree : Prop :=
  (∀ (v : Word) (i : Instr), decode v = .ok i ↔ v = encode i) ∧
  (∀ i : Instr, decodeTableWord 32 (encode i).toNat = some i) ∧
  encode .deriveBefore = 0x00000001 ∧ encode .deriveAfter = 0x00000002 ∧ encode .deriveMiddle = 0x00000003 ∧
  encode .counterKdf = 0x00000004 ∧ encode .encodeCounter = 0x00000005

/-- R81, R82: words of the opcode map, and words that are illegal for each of the two reasons. -/
def Obligations.WrittenOutWordsDecode : Prop :=
  decode 0b00000000000000000000000000000001 = .ok .deriveBefore ∧
  decode 0b00000000000000000000000000000010 = .ok .deriveAfter ∧
  decode 0b00000000000000000000000000000011 = .ok .deriveMiddle ∧
  decode 0b00000000000000000000000000000100 = .ok .counterKdf ∧
  decode 0b00000000000000000000000000000101 = .ok .encodeCounter ∧
  decode 0x00000000 = .error .unassignedOpcode ∧ decode 0x00000006 = .error .unassignedOpcode ∧
  decode 0x00000105 = .error .reservedBitsSet ∧ decode 0x80000001 = .error .reservedBitsSet

/-- R82: an illegal word written while idle is rejected with code 7 whatever the operands are; while busy a CMD write of
any word, legal or illegal, only sets ACCESS_ERR. -/
def Obligations.IllegalWordIsRejectedOrRefused : Prop :=
  ∀ (s : State) (es : List Event) (a v : Word), s.rstN = true → a.toNat = s.build.blockBase + 0x008 →
    s.events = .bus (.write a .word v) :: es →
    (s.status.busy = false →
      v.extractLsb' 8 24 ≠ 0#24 ∨ (v.extractLsb' 0 8).toNat = 0 ∨ 6 ≤ (v.extractLsb' 0 8).toNat →
      step s = .next ((s.answered .okay 0).rejectedWith 7)) ∧
    (s.status.busy = true → step s = .next (s.answered .okay 0).withAccessErr)

/-- R23, R121, R218: a CMD write of a word that decodes to a command is that command's meaning, in the state where the write
has left the list of events and is answered OKAY; `withFetchWord` places such a write as the next event.
The list of events and `withFetchWord` are the model's choice (log 2, log 8). -/
def Obligations.StepRunsTheDecodedCommand : Prop :=
  (∀ (s : State) (es : List Event) (a v : Word) (i : Instr),
    s.rstN = true → s.events = .bus (.write a .word v) :: es → a.toNat = s.build.blockBase + 0x008 → decode v = .ok i →
    step s = exec i (s.answered .okay 0)) ∧
  (∀ (s : State) (i : Instr), s.rstN = true →
    step (s.withFetchWord 32 (encode i).toNat) = exec i { s with busRsp := some { resp := .okay, data := 0 } })

/- ## The commands at the CMD write -/

/-- R128, R131, R137: DERIVE_BEFORE with every check passed is accepted. -/
def Obligations.DeriveBeforeIsAccepted : Prop :=
  ∀ (s : State) (h : Nat) (w : Width), s.status.busy = false → s.Passes h w s.nIter [s.key, s.fixa] →
    exec .deriveBefore s = .next
      { s with
        status := s.busyStatus, nUsedLo := s.nIterLo, nUsedHi := s.nIterHi
        engine := .run
          { op := .deriveBefore, alg := s.algId, key := s.regionBytes s.key, pre := [], post := s.regionBytes s.fixa,
            w := w, n := s.nIter, outOff := s.out.off, outLen := s.out.len, i := 1, waiting := false, acc := [] } }

/-- R128, R131, R138: DERIVE_AFTER with every check passed is accepted. -/
def Obligations.DeriveAfterIsAccepted : Prop :=
  ∀ (s : State) (h : Nat) (w : Width), s.status.busy = false → s.Passes h w s.nIter [s.key, s.fixa] →
    exec .deriveAfter s = .next
      { s with
        status := s.busyStatus, nUsedLo := s.nIterLo, nUsedHi := s.nIterHi
        engine := .run
          { op := .deriveAfter, alg := s.algId, key := s.regionBytes s.key, pre := s.regionBytes s.fixa, post := [],
            w := w, n := s.nIter, outOff := s.out.off, outLen := s.out.len, i := 1, waiting := false, acc := [] } }

/-- R128, R131, R139: DERIVE_MIDDLE with every check passed is accepted. -/
def Obligations.DeriveMiddleIsAccepted : Prop :=
  ∀ (s : State) (h : Nat) (w : Width), s.status.busy = false → s.Passes h w s.nIter [s.key, s.fixa, s.fixb] →
    exec .deriveMiddle s = .next
      { s with
        status := s.busyStatus, nUsedLo := s.nIterLo, nUsedHi := s.nIterHi
        engine := .run
          { op := .deriveMiddle, alg := s.algId, key := s.regionBytes s.key, pre := s.regionBytes s.fixa,
            post := s.regionBytes s.fixb, w := w, n := s.nIter, outOff := s.out.off, outLen := s.out.len, i := 1,
            waiting := false, acc := [] } }

/-- R128, R162 to R164, R167: COUNTER_KDF with every check but that of OUT_LEN against n · D passed is accepted (that one
never fails, R166), with the standard fixed input and the computed n. -/
def Obligations.CounterKdfIsAccepted : Prop :=
  ∀ (s : State) (h : Nat) (w : Width), s.status.busy = false →
    registry s.build s.algId = some h → s.ctrWidth.toNat = w.bits →
    (8 * s.out.len.toNat + h - 1) / h ≤ 2 ^ w.bits - 1 →
    (∀ p ∈ [s.key, s.fixa, s.fixb, s.fixc, s.out], p.off.toNat + p.len.toNat ≤ s.build.opmemBytes) →
    (∀ p ∈ [s.key, s.fixa, s.fixb, s.fixc], ¬(0 < s.out.len.toNat ∧ 0 < p.len.toNat ∧
      s.out.off.toNat < p.off.toNat + p.len.toNat ∧ p.off.toNat < s.out.off.toNat + s.out.len.toNat)) →
    exec .counterKdf s = .next
      { s with
        status := s.busyStatus
        nUsedLo := BitVec.ofNat 32 ((8 * s.out.len.toNat + h - 1) / h)
        nUsedHi := BitVec.ofNat 32 ((8 * s.out.len.toNat + h - 1) / h / 2 ^ 32)
        engine := .run
          { op := .counterKdf, alg := s.algId, key := s.regionBytes s.key, pre := []
            post := s.regionBytes s.fixa ++ [0x00] ++ s.regionBytes s.fixb ++ s.regionBytes s.fixc
              ++ [BitVec.ofNat 8 (8 * s.out.len.toNat % 65536 / 256), BitVec.ofNat 8 (8 * s.out.len.toNat % 256)]
            w := w, n := (8 * s.out.len.toNat + h - 1) / h, outOff := s.out.off, outLen := s.out.len, i := 1
            waiting := false, acc := [] } }

/-- R113: ENCODE_COUNTER with a supported width and room for its bytes is accepted, N_USED unchanged; the engine's next step
writes `encode(w, N)` at OUT_OFF, leaves every other byte alone and ends the command. -/
def Obligations.EncodeCounterRuns : Prop :=
  ∀ (s : State) (w : Width), s.status.busy = false → s.ctrWidth.toNat = w.bits →
    s.out.off.toNat + w.bytes ≤ s.build.opmemBytes →
    ∃ t, exec .encodeCounter s = .next t ∧
      t = { s with
            status := s.busyStatus
            engine := .run
              { op := .encodeCounter, alg := s.algId, key := [], pre := encodeCounterField w s.nIter, post := [], w := w
                n := 0, outOff := s.out.off, outLen := BitVec.ofNat 32 w.bytes, i := 1, waiting := false, acc := [] } } ∧
      ∃ u, step { t with events := .engine :: s.events } = .next u ∧
        u.status = { busy := false, done := true, err := false, errCode := 0, accessErr := s.status.accessErr } ∧
        u.engine = .idle ∧ { u with ram := s.ram, status := s.status, engine := s.engine } = s ∧
        (∀ k < w.bytes, u.ramByte (s.out.off.toNat + k)
          = BitVec.ofNat 8 (s.nIter / 2 ^ (w.bits - 8 - 8 * k))) ∧
        ∀ a, a < s.out.off.toNat ∨ s.out.off.toNat + w.bytes ≤ a → u.ramByte a = s.ramByte a

/-- R122 to R127, R183, R185: a derivation command is rejected with the code of the first check that fails, and nothing else
changes; ENCODE_COUNTER makes only the checks of codes 2 and 5, in that order (R113). -/
def Obligations.FirstFailingCheckIsReported : Prop :=
  ∀ s : State, s.status.busy = false →
    (∀ (i : Instr) (c : BitVec 4), isDerive i = true → s.FirstFailure (fun _ => s.nIter) (s.inputRegions i) c →
      exec i s = .next (s.rejectedWith c)) ∧
    (∀ c : BitVec 4,
      s.FirstFailure (fun h => (8 * s.out.len.toNat + h - 1) / h) (s.inputRegions .counterKdf) c →
      exec .counterKdf s = .next (s.rejectedWith c)) ∧
    (s.ctrWidth.toNat ∉ [8, 16, 24, 32] → exec .encodeCounter s = .next (s.rejectedWith 2)) ∧
    (∀ w : Width, s.ctrWidth.toNat = w.bits → s.build.opmemBytes < s.out.off.toNat + w.bytes →
      exec .encodeCounter s = .next (s.rejectedWith 5))

/-- R166: COUNTER_KDF is never rejected with code 4, since `out_len ≤ n · D`. -/
def Obligations.CounterKdfNeverCode4 : Prop :=
  ∀ s : State, s.status.busy = false → (∃ t, exec .counterKdf s = .next t ∧ t.status.errCode ≠ 4) ∧
    ∀ h : Nat, registry s.build s.algId = some h → s.out.len.toNat ≤ (8 * s.out.len.toNat + h - 1) / h * (h / 8)

/-- R141: with the other checks passed, `n = 2^w − 1` is accepted and `n = 2^w` is rejected with code 3; `n = 2^32` is presented
as N_ITER_HI = 1, N_ITER_LO = 0. -/
def Obligations.CounterBoundary : Prop :=
  ∀ (s : State) (i : Instr) (h : Nat) (w : Width), s.status.busy = false → isDerive i = true →
    registry s.build s.algId = some h → s.ctrWidth.toNat = w.bits → s.out.len.toNat ≤ s.nIter * (h / 8) →
    (∀ p ∈ s.out :: s.inputRegions i, p.off.toNat + p.len.toNat ≤ s.build.opmemBytes) →
    (∀ p ∈ s.inputRegions i, ¬(0 < s.out.len.toNat ∧ 0 < p.len.toNat ∧
      s.out.off.toNat < p.off.toNat + p.len.toNat ∧ p.off.toNat < s.out.off.toNat + s.out.len.toNat)) →
    (s.nIter = 2 ^ w.bits - 1 → ∃ t r, exec i s = .next t ∧ t.status.busy = true ∧ t.engine = .run r ∧
      r.n = 2 ^ w.bits - 1) ∧
    (s.nIter = 2 ^ w.bits → exec i s = .next (s.rejectedWith 3)) ∧
    (s.nIterHi = 1 → s.nIterLo = 0 → s.nIter = 2 ^ Width.w32.bits)

/-- R142: with the other checks passed, `n = 0` is accepted with OUT_LEN = 0, issues no PRF request, writes nothing and
completes with DONE = 1 and N_USED = 0; with OUT_LEN > 0 it is rejected with code 4. -/
def Obligations.ZeroIterations : Prop :=
  ∀ (s : State) (i : Instr) (h : Nat) (w : Width), s.status.busy = false → isDerive i = true →
    registry s.build s.algId = some h → s.ctrWidth.toNat = w.bits → s.nIter = 0 →
    (∀ p ∈ s.out :: s.inputRegions i, p.off.toNat + p.len.toNat ≤ s.build.opmemBytes) →
    (s.out.len.toNat = 0 → ∃ t u, exec i s = .next t ∧ t.status.busy = true ∧ t.nUsedLo = 0 ∧ t.nUsedHi = 0 ∧
      step { t with events := .engine :: s.events } = .next u ∧ u.engine = .idle ∧ u.status.busy = false ∧
      u.status.done = true ∧ u.nUsedLo = 0 ∧ u.nUsedHi = 0 ∧ u.port = s.port ∧ u.ram = s.ram) ∧
    (0 < s.out.len.toNat → exec i s = .next (s.rejectedWith 4))

/-- R128, R185, R189, R38: whatever a CMD write of a command's word does, the operand registers, IRQ_EN, every byte of the
buffer RAM and both ports stay; ACCESS_ERR stays unless the write is refused; N_USED stays unless a command other than
ENCODE_COUNTER is accepted; the engine's internal state stays unless the command is accepted. -/
def Obligations.CommandFrame : Prop :=
  ∀ (i : Instr) (s : State), ∃ t, exec i s = .next t ∧ s.SameInputs t ∧
    (s.status.busy = true → t.status = { s.status with accessErr := true } ∧ t.engine = s.engine ∧
      t.nUsedLo = s.nUsedLo ∧ t.nUsedHi = s.nUsedHi) ∧
    (s.status.busy = false → t.status.accessErr = s.status.accessErr ∧ t.status.done = false ∧
      ((t.status.busy = false ∧ t.status.err = true ∧ t.engine = s.engine ∧ t.nUsedLo = s.nUsedLo ∧ t.nUsedHi = s.nUsedHi) ∨
       (t.status.busy = true ∧ t.status.err = false ∧ t.status.errCode = 0 ∧ ∃ r, t.engine = .run r ∧ r.op = i))) ∧
    (i = .encodeCounter → t.nUsedLo = s.nUsedLo ∧ t.nUsedHi = s.nUsedHi)

/-- R19: the outcome of a command is a function of the CSRs and the buffer RAM bytes (and the build) alone: neither the ports,
the events to come nor the engine's former state matter. -/
def Obligations.OutcomeDependsOnRegistersAndRam : Prop :=
  ∀ (i : Instr) (s t : State), s.status.busy = false → t.status.busy = false →
    t.build = s.build → t.algId = s.algId → t.ctrWidth = s.ctrWidth → t.nIterLo = s.nIterLo → t.nIterHi = s.nIterHi →
    t.key = s.key → t.fixa = s.fixa → t.fixb = s.fixb → t.fixc = s.fixc → t.out = s.out →
    (∀ a, a < s.build.opmemBytes → t.ramByte a = s.ramByte a) →
    ∃ s' t', exec i s = .next s' ∧ exec i t = .next t' ∧ t'.status.busy = s'.status.busy ∧ t'.status.err = s'.status.err ∧
      t'.status.errCode = s'.status.errCode ∧ (s'.status.busy = true → t'.engine = s'.engine)

/- ## Byte strings -/

/-- R110: `encode(w, i)` has w / 8 bytes, and byte k is `(i div 2^(w − 8 − 8k)) mod 256`. -/
def Obligations.CounterFieldBytes : Prop :=
  ∀ (w : Width) (i : Nat), (encodeCounterField w i).length = w.bits / 8 ∧
    ∀ k < w.bits / 8, ((encodeCounterField w i)[k]?).map BitVec.toNat = some (i / 2 ^ (w.bits - 8 - 8 * k) % 256)

/-- R112: from 1 to 2^w − 1 the counter field, read as a big-endian number, is the counter; it is never all zeros, and distinct
counters have distinct fields. -/
def Obligations.CounterFieldIsExactInRange : Prop :=
  ∀ (w : Width) (i j : Nat), 1 ≤ i → i ≤ 2 ^ w.bits - 1 → 1 ≤ j → j ≤ 2 ^ w.bits - 1 →
    (encodeCounterField w i).foldl (fun x b => 256 * x + b.toNat) 0 = i ∧
    encodeCounterField w i ≠ List.replicate w.bytes 0 ∧ (encodeCounterField w i = encodeCounterField w j → i = j)

/-- R91, R163: the bytes of the standard fixed input F at their offsets, the length field wrapping at 65536. -/
def Obligations.FixedInputLayout : Prop :=
  ∀ s : State,
    s.fixedInput.length = s.fixa.len.toNat + s.fixb.len.toNat + s.fixc.len.toNat + 3 ∧
    (∀ k < s.fixa.len.toNat, s.fixedInput[k]? = some (s.ramByte (s.fixa.off.toNat + k))) ∧
    s.fixedInput[s.fixa.len.toNat]? = some 0x00 ∧
    (∀ k < s.fixb.len.toNat, s.fixedInput[s.fixa.len.toNat + 1 + k]? = some (s.ramByte (s.fixb.off.toNat + k))) ∧
    (∀ k < s.fixc.len.toNat,
      s.fixedInput[s.fixa.len.toNat + s.fixb.len.toNat + 1 + k]? = some (s.ramByte (s.fixc.off.toNat + k))) ∧
    s.fixedInput[s.fixa.len.toNat + s.fixb.len.toNat + s.fixc.len.toNat + 1]?
      = some (BitVec.ofNat 8 (8 * s.out.len.toNat % 65536 / 256)) ∧
    s.fixedInput[s.fixa.len.toNat + s.fixb.len.toNat + s.fixc.len.toNat + 2]?
      = some (BitVec.ofNat 8 (8 * s.out.len.toNat % 256))

/-- R162: for a registered digest of h bits, D bytes, the count `(l + h − 1) div h` with l = 8 · len is `ceil(len / D)`, and
`n · D ≥ len`, with no smaller count enough. -/
def Obligations.AssemblerCountIsCeiling : Prop :=
  ∀ (b : Config.Build) (alg : Byte) (h len : Nat), registry b alg = some h →
    assemblerCount (8 * len) h = (8 * len + h - 1) / h ∧
    assemblerCount (8 * len) h = (len + digestBytes b alg - 1) / digestBytes b alg ∧
    len ≤ assemblerCount (8 * len) h * digestBytes b alg ∧
    ∀ m, len ≤ m * digestBytes b alg → assemblerCount (8 * len) h ≤ m

/-- R168: an accepted COUNTER_KDF and an accepted DERIVE_BEFORE with the same alg, key, width and OUT_LEN, F as FIXA's bytes
and the computed n make the same PRF requests and the same output. -/
def Obligations.CounterKdfIsDeriveBefore : Prop :=
  ∀ (s t : State) (h : Nat) (w : Width), s.status.busy = false → t.status.busy = false →
    s.Passes h w ((8 * s.out.len.toNat + h - 1) / h) [s.key, s.fixa, s.fixb, s.fixc] →
    t.Passes h w t.nIter [t.key, t.fixa] →
    t.build = s.build → t.algId = s.algId → t.regionBytes t.key = s.regionBytes s.key → t.out.len = s.out.len →
    t.regionBytes t.fixa = s.fixedInput → t.nIter = (8 * s.out.len.toNat + h - 1) / h →
    ∃ s' t' p q, exec .counterKdf s = .next s' ∧ exec .deriveBefore t = .next t' ∧ s'.engine = .run p ∧
      t'.engine = .run q ∧ p.n = q.n ∧ (∀ i, p.request i = q.request i) ∧ p.output s.build = q.output s.build

/- ## The PRF and its port -/

/-- R10, R85, R95: ids 0x00, 0x01 and 0x02 are as fixed, every registered digest is a positive whole number of bytes, and
`PRF` answers with D bytes. -/
def Obligations.RegistryAndPrfLengths : Prop :=
  ∀ b : Config.Build, registry b 0x00 = none ∧ registry b 0x01 = some 256 ∧ registry b 0x02 = some 384 ∧
    ∀ (alg : Byte) (h : Nat), registry b alg = some h →
      0 < h ∧ h % 8 = 0 ∧ ∀ key msg, (prf b alg key msg).length = h / 8

/-- R97: the beats of a request: the key bytes in order, then the message bytes in order, `prf_req_last` on the final message
beat only, `prf_req_alg` on each. -/
def Obligations.RequestBeatOrder : Prop :=
  ∀ q : PrfRequest, (requestBeats q).length = q.key.length + q.msg.length ∧
    (∀ k < q.key.length, (requestBeats q)[k]? = (q.key[k]?).map fun b => ⟨q.alg, .key, b, false⟩) ∧
    (∀ k < q.msg.length, (requestBeats q)[q.key.length + k]?
      = (q.msg[k]?).map fun b => ⟨q.alg, .message, b, decide (k + 1 = q.msg.length)⟩)

/-- R97, R99: the PRF core reads back exactly the request from its beats, and reads none before the last beat. -/
def Obligations.RequestSurvivesThePort : Prop :=
  ∀ q : PrfRequest, q.msg ≠ [] → assembleRequest (requestBeats q) = some q ∧
    ∀ k < (requestBeats q).length, assembleRequest ((requestBeats q).take k) = none

/-- R98: the beats of a response: its bytes in order, `prf_rsp_last` on the final one only. -/
def Obligations.ResponseBeatOrder : Prop :=
  ∀ d : Bytes, (responseBeats d).length = d.length ∧
    ∀ k < d.length, (responseBeats d)[k]? = (d[k]?).map fun b => ⟨b, decide (k + 1 = d.length)⟩

/-- R99: a response beat that breaks the PRF core's contract is no event of a run: the step is refused by name
(the model's reading, log 6). -/
def Obligations.ContractBreachIsRefused : Prop :=
  ∀ (s : State) (b : RspBeat) (es : List Event), s.events = .foreignBeat b :: es → step s = .refused .prfContract

/-- R95, R96, R98: what the PRF port's events do, in every state. An edge with `prf_req_ready` = 1 moves exactly the beat driven,
if `prf_req_valid` is 1. The PRF core answers the request it has taken in full with the beats of its PRF. An edge with
`prf_rsp_valid` = 1 moves the answer's next beat if `prf_rsp_ready` is 1. Else the event changes nothing, which is the model's
choice (log 9). `prf_rsp_ready` is 1 while a command waits, its request has left and the last beat has not come (log 7). -/
def Obligations.PrfPortEvents : Prop :=
  ∀ (s : State) (es : List Event),
    (s.events = .reqReady :: es →
      (s.prfReqValid = false → step s = .next s.popped) ∧
      (s.prfReqValid = true → ∃ b bs, s.port.req = b :: bs ∧ s.prfReqBeat = some b ∧
        step s = .next { s.popped with port := { s.port with req := bs, core := s.port.core ++ [b] } })) ∧
    (s.events = .prfAnswer :: es →
      (assembleRequest s.port.core = none → step s = .next s.popped) ∧
      ∀ q, assembleRequest s.port.core = some q → step s = .next { s.popped with
        port := { s.port with core := [], rsp := responseBeats (prf s.build q.alg q.key q.msg) } }) ∧
    (s.events = .rspValid :: es →
      (s.port.rsp = [] ∨ s.prfRspReady = false → step s = .next s.popped) ∧
      ∀ b bs, s.port.rsp = b :: bs → s.prfRspReady = true → step s = .next { s.popped with
        port := { s.port with rsp := bs, got := s.port.got ++ [b.byte], gotLast := b.last } }) ∧
    (s.prfRspReady = true ↔ ∃ r, s.engine = .run r ∧ r.waiting = true ∧ s.port.req = [] ∧ s.port.gotLast = false)

/- ## The engine -/

/-- R130: the engine's one enabled step, by its state: Issue, and Receive once the response is in. When Idle, and while the
response is not in, the engine has no step; that its event then changes nothing is the model's choice (log 9). -/
def Obligations.EngineStepTable : Prop :=
  ∀ (s : State) (es : List Event), s.events = .engine :: es →
    (s.engine = .idle → step s = .next s.popped) ∧
    ∀ r, s.engine = .run r →
      (r.waiting = false → r.i ≤ r.n → step s = .next { s.popped with
        engine := .run { r with waiting := true }
        port := { s.port with req := requestBeats { alg := r.alg, key := r.key, msg := r.message r.i } } }) ∧
      (r.waiting = true → s.port.gotLast = true → step s = .next { s.popped with
        engine := .run { r with waiting := false, i := r.i + 1, acc := r.acc ++ s.port.got }
        port := { s.port with got := [], gotLast := false } }) ∧
      (r.waiting = true → s.port.gotLast = false → step s = .next s.popped)

/-- R134: Complete writes the encoded counter, or the first out_len bytes of the accumulator, at out_off; BUSY falls, DONE
rises, the engine is Idle, and no other register or byte changes. -/
def Obligations.CompleteWritesTheResult : Prop :=
  ∀ (s : State) (es : List Event) (r : Run) (result : Bytes), s.events = .engine :: es → s.engine = .run r →
    r.waiting = false → r.n < r.i →
    (r.op = .encodeCounter → result = r.pre) → (r.op ≠ .encodeCounter → result = r.acc.take r.outLen.toNat) →
    ∃ t, step s = .next t ∧ { t with ram := s.ram } = { s.popped with
        status := { s.status with busy := false, done := true }, engine := .idle } ∧
      (∀ k (hk : k < result.length), t.ramByte (r.outOff.toNat + k) = result[k]) ∧
      ∀ a, a < r.outOff.toNat ∨ r.outOff.toNat + result.length ≤ a → t.ramByte a = s.ramByte a

/-- R133: with a registered alg and `out_len ≤ n · D`, the output has out_len bytes and byte k is `d_{(k div D) + 1}[k mod D]`. -/
def Obligations.OutputByteK : Prop :=
  ∀ (b : Config.Build) (r : Run), r.op ≠ .encodeCounter → registry b r.alg ≠ none →
    r.outLen.toNat ≤ r.n * digestBytes b r.alg →
    (r.output b).length = r.outLen.toNat ∧
    ∀ k < r.outLen.toNat, (r.output b)[k]? = (r.digest b (k / digestBytes b r.alg + 1))[k % digestBytes b r.alg]?

/-- R133, R134, R140: in a state of the invariant, whichever step raises DONE writes the output the rules give, of out_len
bytes, at out_off, and no other byte. -/
def Obligations.DoneMeansTheRightOutput : Prop :=
  ∀ (s t : State), s.Inv → s.status.done = false → step s = .next t → t.status.done = true →
    ∃ r, s.engine = .run r ∧ t.engine = .idle ∧ t.status.busy = false ∧ (r.output s.build).length = r.outLen.toNat ∧
      (∀ k < r.outLen.toNat, some (t.ramByte (r.outOff.toNat + k)) = (r.output s.build)[k]?) ∧
      ∀ a, a < r.outOff.toNat ∨ r.outOff.toNat + r.outLen.toNat ≤ a → t.ramByte a = s.ramByte a

/-- R226, R136: from the acceptance of any command, in a state of the invariant, a schedule in which every agent does its part
(n Issues, n answers, n Receives and one Complete) ends with the output written, DONE = 1 and the engine Idle. -/
def Obligations.FairScheduleCompletes : Prop :=
  ∀ (s t : State) (i : Instr) (r : Run) (es : List Event), s.Inv → s.rstN = true → s.status.busy = false →
    exec i s = .next t → t.engine = .run r →
    ∃ u, Host.Core.run core (r.schedule s.build).length { t with events := r.schedule s.build ++ es } = .next u ∧
      u.ram = Memory.storeBytes t.ram r.outOff.toNat (r.output s.build) ∧
      { u with ram := t.ram } = { t with
        status := { t.status with busy := false, done := true }, engine := .idle, events := es }

/-- R226: from the acceptance of any command, in a state of the invariant, every fair run without a reset, whatever the host does and
in whatever order the agents step, completes the command after exactly n Issue steps, n Receive steps and one Complete step, with
the output written. The premise is read as log 17 says; in it a beat of the request can transfer at every edge until the last has, for
the engine holds `prf_req_valid` at 1 without a gap, which is the model's choice (log 16). -/
def Obligations.FairRunCompletes : Prop :=
  ∀ (s : State) (i : Instr) (r : Run) (σ : Nat → Event) (x : Nat → State), s.Inv → s.rstN = true →
    s.status.busy = false → exec i s = .next (x 0) → (x 0).engine = .run r → FairRun σ x → (∀ k, σ k ≠ .resetLow) →
    ∃ k, (∀ j ≤ k, (x j).status.busy = true) ∧ (x (k + 1)).status.busy = false ∧ (x (k + 1)).status.done = true ∧
      (x (k + 1)).engine = .idle ∧
      (x (k + 1)).ram = Memory.storeBytes s.ram r.outOff.toNat (r.output s.build) ∧
      movesBefore σ x .issue (k + 1) = r.n ∧ movesBefore σ x .receive (k + 1) = r.n ∧
      movesBefore σ x .complete (k + 1) = 1

/-- R226: without the fairness premise a command can stay busy for ever: from every busy state there is a run, of a host polling
STATUS, at no point of which the command completes. -/
def Obligations.UnfairRunStaysBusy : Prop :=
  ∀ (s : State) (r : Run), s.status.busy = true → s.engine = .run r →
    ∃ (σ : Nat → Event) (x : Nat → State), IsRun σ x ∧ x 0 = s ∧
      ∀ k, σ k = .bus (.read (Build.address s.build 0x00C) .word) ∧ (x k).status.busy = true ∧ (x k).engine = .run r

/-- R66, R220: while a command is in progress no step changes its inputs: as long as it stays in progress its record keeps its
op, alg, key, message parts, width, n and output region, and the operand registers and every byte of the buffer RAM stay. -/
def Obligations.InputsAreStableWhileBusy : Prop :=
  ∀ (s t : State) (r r' : Run), s.status.busy = true → s.engine = .run r → step s = .next t → t.engine = .run r' →
    r'.op = r.op ∧ r'.alg = r.alg ∧ r'.key = r.key ∧ r'.pre = r.pre ∧ r'.post = r.post ∧ r'.w = r.w ∧ r'.n = r.n ∧
    r'.outOff = r.outOff ∧ r'.outLen = r.outLen ∧ t.status.busy = true ∧
    t.algId = s.algId ∧ t.ctrWidth = s.ctrWidth ∧ t.nIterLo = s.nIterLo ∧ t.nIterHi = s.nIterHi ∧ t.key = s.key ∧
    t.fixa = s.fixa ∧ t.fixb = s.fixb ∧ t.fixc = s.fixc ∧ t.out = s.out ∧ ∀ a, t.ramByte a = s.ramByte a

/- ## Invariants -/

/-- R20, R27, R40, R210: the invariant holds right after reset (of the build State.reset stands in, log 1). -/
def Obligations.InvariantHoldsAtReset : Prop := State.reset.Inv

/-- R25, R27, R40, R44, R52, R97, R98, R133, R210: every step keeps the invariant: the flags agree with each other and the
engine, the buffer RAM is canonical and inside OPMEM_BYTES, the accumulator is d_1 ‖ ... ‖ d_(i−1) with 1 ≤ i ≤ n + 1, and the
PRF port carries exactly the request and answer of iteration i. At a reset edge the PRF core's side of the port is cleared (R213;
the model's presumption, log 13). -/
def Obligations.EveryStepKeepsTheInvariant : Prop := ∀ s t : State, s.Inv → step s = .next t → t.Inv

/-- R25, R27, R40: the flags' part of the invariant is kept on its own, from every state that meets it. -/
def Obligations.EveryStepKeepsTheFlags : Prop := ∀ s t : State, s.StatusOk → step s = .next t → t.StatusOk

/-- R52: every step keeps the buffer RAM in its canonical form, and none changes the build (R22). -/
def Obligations.EveryStepKeepsMemoryCanonical : Prop :=
  ∀ s t : State, Memory.wf s.ram → step s = .next t → Memory.wf t.ram ∧ t.build = s.build

/- ## Whole-machine rules -/

/-- R25: BUSY rises only by the acceptance of a command at a CMD write, and falls only by Complete or reset. -/
def Obligations.BusyChangesOnlyByAcceptanceCompletionReset : Prop :=
  ∀ s t : State, step s = .next t →
    (s.status.busy = false → t.status.busy = true → ∃ a v i r es, s.events = .bus (.write a .word v) :: es ∧
      a.toNat = s.build.blockBase + 0x008 ∧ decode v = .ok i ∧ t.engine = .run r ∧ r.op = i) ∧
    (s.status.busy = true → t.status.busy = false →
      (∃ es, s.events = .engine :: es ∧ t.status.done = true ∧ t.engine = .idle) ∨ ∃ es, s.events = .resetLow :: es)

/-- R28: ACCESS_ERR rises only by a host access while busy, and falls only by a STATUS write with bit 3 = 1 or by reset. -/
def Obligations.AccessErrIsSticky : Prop :=
  ∀ s t : State, step s = .next t →
    (s.status.accessErr = false → t.status.accessErr = true →
      s.status.busy = true ∧ ∃ x es, s.events = .bus x :: es) ∧
    (s.status.accessErr = true → t.status.accessErr = false →
      (∃ es, s.events = .resetLow :: es) ∨ ∃ a v es, s.events = .bus (.write a .word v) :: es ∧
        a.toNat = s.build.blockBase + 0x00C ∧ v.getLsbD 3 = true)

/-- R38: N_USED is written only by the acceptance of a command other than ENCODE_COUNTER, with its n, or by reset. -/
def Obligations.NUsedIsWrittenOnlyByAcceptance : Prop :=
  ∀ s t : State, step s = .next t → (t.nUsedLo ≠ s.nUsedLo ∨ t.nUsedHi ≠ s.nUsedHi) →
    (∃ es, s.events = .resetLow :: es) ∨
    ∃ a v i r es, s.events = .bus (.write a .word v) :: es ∧ a.toNat = s.build.blockBase + 0x008 ∧ decode v = .ok i ∧
      i ≠ .encodeCounter ∧ s.status.busy = false ∧ t.engine = .run r ∧
      t.nUsedLo = BitVec.ofNat 32 (r.n % 2 ^ 32) ∧ t.nUsedHi = BitVec.ofNat 32 (r.n / 2 ^ 32)

/-- R52, R57, R62, R134, R135, R211, R212: a byte of the buffer RAM changes only by a host write to it while idle, by Complete
or by a reset while busy, and in the last two only inside the output region. -/
def Obligations.RamIsWrittenOnlyBy : Prop :=
  ∀ (s t : State) (x : Nat), s.Inv → step s = .next t → t.ramByte x ≠ s.ramByte x →
    (s.status.busy = false ∧ s.rstN = true ∧ ∃ a z v b es, s.events = .bus (.write a z v) :: es ∧
      a.toNat = s.build.blockBase + 0x10000 + b ∧ b ≤ x ∧ x < b + z.bytes) ∨
    ∃ r, s.engine = .run r ∧ r.outOff.toNat ≤ x ∧ x < r.outOff.toNat + r.outLen.toNat ∧
      ((∃ es, s.events = .engine :: es ∧ t.status.done = true) ∨ ∃ es, s.events = .resetLow :: es)

/-- R182: while a command is in progress no step raises ERR or records a code. -/
def Obligations.NoErrorAfterAcceptance : Prop :=
  ∀ s t : State, s.status.busy = true → step s = .next t →
    (t.status.err = true → s.status.err = true) ∧ (t.status.errCode ≠ 0 → t.status.errCode = s.status.errCode)

/- ## Host transactions -/

/-- R54 to R57: an illegal access is answered ERROR with data 0 and changes nothing, busy or not. -/
def Obligations.IllegalAccessChangesNothing : Prop :=
  ∀ (s : State) (es : List Event) (a v : Word) (z : Size) (o : Nat), s.rstN = true → a.toNat = s.build.blockBase + o →
    ((o < 0x1000 ∧ (z ≠ .word ∨ o % 4 ≠ 0)) ∨ (0x1000 ≤ o ∧ o < 0x10000) ∨
      (0x10000 ≤ o ∧ o < 0x20000 ∧ (0x10000 + s.build.opmemBytes < o + z.bytes ∨ (o - 0x10000) % z.bytes ≠ 0))) →
    (s.events = .bus (.read a z) :: es → step s = .next (s.answered .error 0)) ∧
    (s.events = .bus (.write a z v) :: es → step s = .next (s.answered .error 0))

/-- R51: an address outside the block's 128 KiB does not reach it: nothing changes and the block answers nothing
(the model's choice, log 2). -/
def Obligations.OtherAddressesDoNotReachTheBlock : Prop :=
  ∀ (s : State) (es : List Event) (a v : Word) (z : Size),
    a.toNat < s.build.blockBase ∨ s.build.blockBase + 0x20000 ≤ a.toNat →
    (s.events = .bus (.read a z) :: es → step s = .next { s.popped with busRsp := none }) ∧
    (s.events = .bus (.write a z v) :: es → step s = .next { s.popped with busRsp := none })

/-- R58: a legal buffer read while idle returns its bytes composed little-endian; a legal write of a datum of its size stores the
datum's bytes little-endian and changes nothing else. -/
def Obligations.BufferAccessIsLittleEndian : Prop :=
  ∀ (s : State) (es : List Event) (a v : Word) (z : Size) (b : Nat), s.rstN = true → s.status.busy = false →
    a.toNat = s.build.blockBase + 0x10000 + b → b + z.bytes ≤ s.build.opmemBytes → b % z.bytes = 0 →
    (s.events = .bus (.read a z) :: es → step s = .next (s.answered .okay
      (BitVec.ofNat 32 (∑ k ∈ Finset.range z.bytes, (s.ramByte (b + k)).toNat * 2 ^ (8 * k))))) ∧
    ((Transaction.write a z v).wellFormed = true → s.events = .bus (.write a z v) :: es →
      ∃ t, step s = .next t ∧ { t with ram := s.ram } = s.answered .okay 0 ∧
      (∀ k < z.bytes, t.ramByte (b + k) = BitVec.ofNat 8 (v.toNat / 2 ^ (8 * k) % 256)) ∧
      ∀ x, x < b ∨ b + z.bytes ≤ x → t.ramByte x = s.ramByte x)

/-- R58, R60: a legal buffer write while idle and a read of the same size at the same address return the datum. -/
def Obligations.BufferReadsBackWhatWasWritten : Prop :=
  ∀ (s : State) (es : List Event) (a v : Word) (z : Size) (b : Nat), s.rstN = true → s.status.busy = false →
    a.toNat = s.build.blockBase + 0x10000 + b → b + z.bytes ≤ s.build.opmemBytes → b % z.bytes = 0 →
    (Transaction.write a z v).wellFormed = true → s.events = .bus (.write a z v) :: .bus (.read a z) :: es →
    ∃ t, Host.Core.run core 2 s = .next t ∧ t.busRsp = some { resp := .okay, data := v } ∧ t.events = es

/-- R189: the accesses refused while busy, and those that are not. -/
def Obligations.BusyRefusals : Prop :=
  ∀ (s : State) (es : List Event) (a v : Word) (o : Nat), s.rstN = true → s.status.busy = true →
    a.toNat = s.build.blockBase + o →
    (o = 0x008 ∨ (0x014 ≤ o ∧ o ≤ 0x048 ∧ o % 4 = 0) → s.events = .bus (.write a .word v) :: es →
      step s = .next (s.answered .okay 0).withAccessErr) ∧
    (∀ z : Size, 0x10000 ≤ o → o + z.bytes ≤ 0x10000 + s.build.opmemBytes → (o - 0x10000) % z.bytes = 0 →
      (s.events = .bus (.read a z) :: es → step s = .next (s.answered .okay 0).withAccessErr) ∧
      (s.events = .bus (.write a z v) :: es → step s = .next (s.answered .okay 0).withAccessErr)) ∧
    (o < 0x1000 → o % 4 = 0 → s.events = .bus (.read a .word) :: es →
      step s = .next (s.answered .okay (s.csrRead o))) ∧
    (o = 0x00C → s.events = .bus (.write a .word v) :: es → step s = .next { s.answered .okay 0 with
      status := { busy := true, done := s.status.done && !v.getLsbD 1, err := s.status.err && !v.getLsbD 2
                  errCode := if v.getLsbD 2 then 0 else s.status.errCode
                  accessErr := s.status.accessErr && !v.getLsbD 3 } }) ∧
    (o = 0x010 → s.events = .bus (.write a .word v) :: es → step s = .next { s.answered .okay 0 with
      irqEn := { doneIe := v.getLsbD 0, errIe := v.getLsbD 1, accessIe := v.getLsbD 2 } }) ∧
    (o = 0x000 ∨ o = 0x004 ∨ (0x04C ≤ o ∧ o < 0x1000 ∧ o % 4 = 0) → s.events = .bus (.write a .word v) :: es →
      step s = .next (s.answered .okay 0))

/-- R30 to R37, R46: an operand register written while idle reads back what was written (bits 7:0 of it for ALG_ID and
CTR_WIDTH), and every other register reads as before. -/
def Obligations.OperandRegistersReadBack : Prop :=
  ∀ (s : State) (es : List Event) (a v : Word) (o : Nat), s.rstN = true → s.status.busy = false →
    a.toNat = s.build.blockBase + o → 0x014 ≤ o → o ≤ 0x048 → o % 4 = 0 → s.events = .bus (.write a .word v) :: es →
    ∃ t, step s = .next t ∧ t.busRsp = some { resp := .okay, data := 0 } ∧
      t.csrRead o = (if o = 0x014 ∨ o = 0x018 then v &&& 0xFF else v) ∧
      (∀ p, p ≠ o → t.csrRead p = s.csrRead p) ∧ t.ram = s.ram ∧ t.engine = s.engine ∧ t.port = s.port

/-- R39: reserved offsets read 0 and ignore writes, OKAY and without ACCESS_ERR; the reserved bits of the defined registers
read 0, and a write is the same whatever it holds in them. -/
def Obligations.ReservedOffsetsAndBits : Prop :=
  (∀ (s : State) (es : List Event) (a v : Word) (o : Nat), s.rstN = true → a.toNat = s.build.blockBase + o →
    0x054 ≤ o → o < 0x1000 → o % 4 = 0 →
    (s.events = .bus (.read a .word) :: es → step s = .next (s.answered .okay 0)) ∧
    (s.events = .bus (.write a .word v) :: es → step s = .next (s.answered .okay 0))) ∧
  ∀ (s : State) (v : Word),
    (∀ k, s.status.word.getLsbD k = true → k < 4 ∨ (8 ≤ k ∧ k < 12)) ∧
    (∀ k, s.irqEn.word.getLsbD k = true → k < 3) ∧
    (∀ k, (s.csrRead 0x014).getLsbD k = true → k < 8) ∧ (∀ k, (s.csrRead 0x018).getLsbD k = true → k < 8) ∧
    s.writeCsr .status v = s.writeCsr .status (v &&& 0xF0F) ∧ s.writeCsr .irqEn v = s.writeCsr .irqEn (v &&& 0x7) ∧
    s.writeCsr .algId v = s.writeCsr .algId (v &&& 0xFF) ∧ s.writeCsr .ctrWidth v = s.writeCsr .ctrWidth (v &&& 0xFF)

/-- R54, R186, R189: in every state out of reset, busy or not, a word read of an aligned offset of the CSR window answers the value
there and changes nothing else. R21, R22, R23, R38: ID reads its one value, CAPS reads OPMEM_BYTES, which is a multiple of 4 from
4 to 65536 (R10), CMD reads 0, and N_USED reads its two halves; R24, R29, R30 to R37: STATUS, IRQ_EN and the operand registers read
what they hold. -/
def Obligations.RegisterReads : Prop :=
  ∀ (s : State) (es : List Event) (a : Word) (o : Nat), s.rstN = true → a.toNat = s.build.blockBase + o →
    s.events = .bus (.read a .word) :: es →
    (o < 0x1000 → o % 4 = 0 → step s = .next (s.answered .okay (s.csrRead o))) ∧
    (o = 0x000 → step s = .next (s.answered .okay 0x4B424B01)) ∧
    (o = 0x004 → ∃ v : Word, step s = .next (s.answered .okay v) ∧ v.toNat = s.build.opmemBytes ∧
      s.build.opmemBytes % 4 = 0 ∧ 4 ≤ s.build.opmemBytes ∧ s.build.opmemBytes ≤ 65536) ∧
    (o = 0x008 → step s = .next (s.answered .okay 0)) ∧
    (o = 0x04C → step s = .next (s.answered .okay s.nUsedLo)) ∧
    (o = 0x050 → step s = .next (s.answered .okay s.nUsedHi)) ∧
    (o = 0x00C → step s = .next (s.answered .okay s.status.word)) ∧
    (o = 0x010 → ∃ v : Word, step s = .next (s.answered .okay v) ∧ v.getLsbD 0 = s.irqEn.doneIe ∧
      v.getLsbD 1 = s.irqEn.errIe ∧ v.getLsbD 2 = s.irqEn.accessIe ∧ v.extractLsb' 3 29 = 0#29) ∧
    (o = 0x014 → step s = .next (s.answered .okay (s.algId.setWidth 32))) ∧
    (o = 0x018 → step s = .next (s.answered .okay (s.ctrWidth.setWidth 32))) ∧
    (o = 0x01C → step s = .next (s.answered .okay s.nIterLo)) ∧
    (o = 0x020 → step s = .next (s.answered .okay s.nIterHi)) ∧
    (o = 0x024 → step s = .next (s.answered .okay s.key.off)) ∧
    (o = 0x028 → step s = .next (s.answered .okay s.key.len)) ∧
    (o = 0x02C → step s = .next (s.answered .okay s.fixa.off)) ∧
    (o = 0x030 → step s = .next (s.answered .okay s.fixa.len)) ∧
    (o = 0x034 → step s = .next (s.answered .okay s.fixb.off)) ∧
    (o = 0x038 → step s = .next (s.answered .okay s.fixb.len)) ∧
    (o = 0x03C → step s = .next (s.answered .okay s.fixc.off)) ∧
    (o = 0x040 → step s = .next (s.answered .okay s.fixc.len)) ∧
    (o = 0x044 → step s = .next (s.answered .okay s.out.off)) ∧
    (o = 0x048 → step s = .next (s.answered .okay s.out.len))

/-- R21, R22, R38, R46: in every state out of reset, busy or not, a word write to ID, CAPS, N_USED_LO or N_USED_HI is answered OKAY
and changes nothing. -/
def Obligations.ReadOnlyRegistersIgnoreWrites : Prop :=
  ∀ (s : State) (es : List Event) (a v : Word) (o : Nat), s.rstN = true → a.toNat = s.build.blockBase + o →
    o = 0x000 ∨ o = 0x004 ∨ o = 0x04C ∨ o = 0x050 → s.events = .bus (.write a .word v) :: es →
    step s = .next (s.answered .okay 0)

/-- R24: the fields of STATUS stand at their bits in the word a host reads. -/
def Obligations.StatusWordLayout : Prop :=
  ∀ f : Status, f.word.getLsbD 0 = f.busy ∧ f.word.getLsbD 1 = f.done ∧ f.word.getLsbD 2 = f.err ∧
    f.word.getLsbD 3 = f.accessErr ∧ f.word.extractLsb' 4 4 = 0#4 ∧ f.word.extractLsb' 8 4 = f.errCode ∧
    f.word.extractLsb' 12 20 = 0#20

/-- R26 to R28, R187: a STATUS write clears DONE by bit 1, ERR and ERR_CODE by bit 2 and ACCESS_ERR by bit 3, whether or not
the engine is busy; it changes nothing else. -/
def Obligations.StatusWriteClears : Prop :=
  ∀ (s : State) (es : List Event) (a v : Word), s.rstN = true → a.toNat = s.build.blockBase + 0x00C →
    s.events = .bus (.write a .word v) :: es → step s = .next { s.answered .okay 0 with
      status := { busy := s.status.busy, done := s.status.done && !v.getLsbD 1, err := s.status.err && !v.getLsbD 2
                  errCode := if v.getLsbD 2 then 0 else s.status.errCode
                  accessErr := s.status.accessErr && !v.getLsbD 3 } }

/-- R61, R63: a read changes nothing but the answer on the bus, except that a legal buffer read while busy, out of reset, answers
OKAY with data 0 and sets ACCESS_ERR. -/
def Obligations.ReadsHaveNoSideEffect : Prop :=
  ∀ (s : State) (es : List Event) (a : Word) (z : Size), s.events = .bus (.read a z) :: es →
    ((s.rstN = true ∧ s.status.busy = true ∧ ∃ b, s.LegalBuffer a z b) → step s = .next (s.answered .okay 0).withAccessErr) ∧
    (¬(s.rstN = true ∧ s.status.busy = true ∧ ∃ b, s.LegalBuffer a z b) →
      ∃ t, step s = .next t ∧ { t with busRsp := s.busRsp } = s.popped)

/-- R42, R29, R190: `irq` is the OR of the enabled pending bits, 0 at reset, as IRQ_EN is. A word write of v to IRQ_EN, busy or not, changes IRQ_EN
alone, which then reads v's low three bits, and takes effect on `irq` at once. -/
def Obligations.InterruptLevel : Prop :=
  State.reset.irq = false ∧ State.reset.csrRead 0x010 = 0 ∧
  (∀ s : State, s.irq = true ↔ (s.status.done = true ∧ s.irqEn.doneIe = true) ∨ (s.status.err = true ∧ s.irqEn.errIe = true) ∨
    (s.status.accessErr = true ∧ s.irqEn.accessIe = true)) ∧
  ∀ (s : State) (es : List Event) (a v : Word), s.rstN = true → a.toNat = s.build.blockBase + 0x010 →
    s.events = .bus (.write a .word v) :: es → ∃ t, step s = .next t ∧
      { t with irqEn := s.irqEn } = s.answered .okay 0 ∧ t.csrRead 0x010 = v &&& 0x7 ∧
      (t.irq = true ↔ (s.status.done = true ∧ v.getLsbD 0 = true) ∨ (s.status.err = true ∧ v.getLsbD 1 = true) ∨
        (s.status.accessErr = true ∧ v.getLsbD 2 = true))

/- ## Reset -/

/-- R20, R21, R22, R23, R210: what a host reads from each register right after reset. CAPS is that of the build State.reset
stands in, with the default OPMEM_BYTES (the model's choice of build, log 1). -/
def Obligations.RegistersAfterReset : Prop :=
  State.reset.csrRead 0x000 = 0x4B424B01 ∧ State.reset.csrRead 0x004 = 16384 ∧ State.reset.csrRead 0x018 = 8 ∧
  (∀ o, o ≠ 0x000 → o ≠ 0x004 → o ≠ 0x018 → State.reset.csrRead o = 0) ∧ State.reset.engine = .idle

/-- R210 to R213: an edge with `rst_n` = 0 gives every register its reset value, leaves the engine Idle, `irq`,
`prf_req_valid` and `prf_rsp_ready` at 0, and keeps every byte of the buffer RAM but those of the output region of a command in
progress; until an edge with `rst_n` = 1 no host transaction is performed (the model drops it, log 12).
The PRF core's side of the port is cleared too (log 13). -/
def Obligations.ResetEdge : Prop :=
  (∀ (s : State) (es : List Event), s.events = .resetLow :: es → ∃ t, step s = .next t ∧ t.rstN = false ∧ t.events = es ∧
    t.build = s.build ∧ t.engine = .idle ∧ t.port = PrfPort.quiet ∧ t.irq = false ∧ t.prfReqValid = false ∧ t.prfRspReady = false ∧
    t.csrRead 0x000 = 0x4B424B01 ∧ t.csrRead 0x004 = BitVec.ofNat 32 s.build.opmemBytes ∧ t.csrRead 0x018 = 8 ∧
    (∀ o, o ≠ 0x000 → o ≠ 0x004 → o ≠ 0x018 → t.csrRead o = 0) ∧
    (s.engine = .idle → ∀ a, t.ramByte a = s.ramByte a) ∧
    ∀ r, s.engine = .run r → ∀ a, a < r.outOff.toNat ∨ r.outOff.toNat + r.outLen.toNat ≤ a → t.ramByte a = s.ramByte a) ∧
  (∀ (s : State) (x : Transaction) (es : List Event), s.rstN = false → s.events = .bus x :: es →
    step s = .next { s.popped with busRsp := none }) ∧
  ∀ (s : State) (es : List Event), s.events = .resetHigh :: es → step s = .next { s.popped with rstN := true }

/- ## Host programs -/

/-- R101: `fill b` while idle leaves its bytes at buffer offsets b, b + 1, ... and every other byte as it was. -/
def Obligations.FillWritesItsBytes : Prop :=
  ∀ (s : State) (b : Nat) (bytes : Bytes) (es : List Event), s.rstN = true → s.status.busy = false →
    b + bytes.length ≤ s.build.opmemBytes → s.events = hostEvents s.build [.fill b bytes] ++ es →
    ∃ t, Host.Core.run core (hostEvents s.build [.fill b bytes]).length s = .next t ∧ t.events = es ∧
      (∀ k (hk : k < bytes.length), t.ramByte (b + k) = bytes[k]) ∧
      ∀ x, x < b ∨ b + bytes.length ≤ x → t.ramByte x = s.ramByte x
end

