-- ==== Sys2Proof/Laws/State.lean ====
section
/-! SUPPORT. What each named update of the state does to each field: one lemma per field per update, true by rfl. -/

namespace Sys2Proof.Machine.State

variable (s : State)

@[simp] theorem withEvents_build (es : List Event) : (s.withEvents es).build = s.build := rfl
@[simp] theorem withEvents_status (es : List Event) : (s.withEvents es).status = s.status := rfl
@[simp] theorem withEvents_irqEn (es : List Event) : (s.withEvents es).irqEn = s.irqEn := rfl
@[simp] theorem withEvents_algId (es : List Event) : (s.withEvents es).algId = s.algId := rfl
@[simp] theorem withEvents_ctrWidth (es : List Event) : (s.withEvents es).ctrWidth = s.ctrWidth := rfl
@[simp] theorem withEvents_nIterLo (es : List Event) : (s.withEvents es).nIterLo = s.nIterLo := rfl
@[simp] theorem withEvents_nIterHi (es : List Event) : (s.withEvents es).nIterHi = s.nIterHi := rfl
@[simp] theorem withEvents_key (es : List Event) : (s.withEvents es).key = s.key := rfl
@[simp] theorem withEvents_fixa (es : List Event) : (s.withEvents es).fixa = s.fixa := rfl
@[simp] theorem withEvents_fixb (es : List Event) : (s.withEvents es).fixb = s.fixb := rfl
@[simp] theorem withEvents_fixc (es : List Event) : (s.withEvents es).fixc = s.fixc := rfl
@[simp] theorem withEvents_out (es : List Event) : (s.withEvents es).out = s.out := rfl
@[simp] theorem withEvents_nUsedLo (es : List Event) : (s.withEvents es).nUsedLo = s.nUsedLo := rfl
@[simp] theorem withEvents_nUsedHi (es : List Event) : (s.withEvents es).nUsedHi = s.nUsedHi := rfl
@[simp] theorem withEvents_ram (es : List Event) : (s.withEvents es).ram = s.ram := rfl
@[simp] theorem withEvents_engine (es : List Event) : (s.withEvents es).engine = s.engine := rfl
@[simp] theorem withEvents_port (es : List Event) : (s.withEvents es).port = s.port := rfl
@[simp] theorem withEvents_rstN (es : List Event) : (s.withEvents es).rstN = s.rstN := rfl
@[simp] theorem withEvents_events (es : List Event) : (s.withEvents es).events = es := rfl
@[simp] theorem withEvents_busRsp (es : List Event) : (s.withEvents es).busRsp = s.busRsp := rfl
@[simp] theorem withEvents_draws (es : List Event) : (s.withEvents es).draws = s.draws := rfl

@[simp] theorem memWrite_build (off : Nat) (v : Bytes) : (s.memWrite off v).build = s.build := rfl
@[simp] theorem memWrite_status (off : Nat) (v : Bytes) : (s.memWrite off v).status = s.status := rfl
@[simp] theorem memWrite_irqEn (off : Nat) (v : Bytes) : (s.memWrite off v).irqEn = s.irqEn := rfl
@[simp] theorem memWrite_algId (off : Nat) (v : Bytes) : (s.memWrite off v).algId = s.algId := rfl
@[simp] theorem memWrite_ctrWidth (off : Nat) (v : Bytes) : (s.memWrite off v).ctrWidth = s.ctrWidth := rfl
@[simp] theorem memWrite_nIterLo (off : Nat) (v : Bytes) : (s.memWrite off v).nIterLo = s.nIterLo := rfl
@[simp] theorem memWrite_nIterHi (off : Nat) (v : Bytes) : (s.memWrite off v).nIterHi = s.nIterHi := rfl
@[simp] theorem memWrite_key (off : Nat) (v : Bytes) : (s.memWrite off v).key = s.key := rfl
@[simp] theorem memWrite_fixa (off : Nat) (v : Bytes) : (s.memWrite off v).fixa = s.fixa := rfl
@[simp] theorem memWrite_fixb (off : Nat) (v : Bytes) : (s.memWrite off v).fixb = s.fixb := rfl
@[simp] theorem memWrite_fixc (off : Nat) (v : Bytes) : (s.memWrite off v).fixc = s.fixc := rfl
@[simp] theorem memWrite_out (off : Nat) (v : Bytes) : (s.memWrite off v).out = s.out := rfl
@[simp] theorem memWrite_nUsedLo (off : Nat) (v : Bytes) : (s.memWrite off v).nUsedLo = s.nUsedLo := rfl
@[simp] theorem memWrite_nUsedHi (off : Nat) (v : Bytes) : (s.memWrite off v).nUsedHi = s.nUsedHi := rfl
@[simp] theorem memWrite_ram (off : Nat) (v : Bytes) : (s.memWrite off v).ram = Memory.storeBytes s.ram off v := rfl
@[simp] theorem memWrite_engine (off : Nat) (v : Bytes) : (s.memWrite off v).engine = s.engine := rfl
@[simp] theorem memWrite_port (off : Nat) (v : Bytes) : (s.memWrite off v).port = s.port := rfl
@[simp] theorem memWrite_rstN (off : Nat) (v : Bytes) : (s.memWrite off v).rstN = s.rstN := rfl
@[simp] theorem memWrite_events (off : Nat) (v : Bytes) : (s.memWrite off v).events = s.events := rfl
@[simp] theorem memWrite_busRsp (off : Nat) (v : Bytes) : (s.memWrite off v).busRsp = s.busRsp := rfl
@[simp] theorem memWrite_draws (off : Nat) (v : Bytes) : (s.memWrite off v).draws = s.draws := rfl

@[simp] theorem respond_build (r : Resp) (d : Word) : (s.respond r d).build = s.build := rfl
@[simp] theorem respond_status (r : Resp) (d : Word) : (s.respond r d).status = s.status := rfl
@[simp] theorem respond_irqEn (r : Resp) (d : Word) : (s.respond r d).irqEn = s.irqEn := rfl
@[simp] theorem respond_algId (r : Resp) (d : Word) : (s.respond r d).algId = s.algId := rfl
@[simp] theorem respond_ctrWidth (r : Resp) (d : Word) : (s.respond r d).ctrWidth = s.ctrWidth := rfl
@[simp] theorem respond_nIterLo (r : Resp) (d : Word) : (s.respond r d).nIterLo = s.nIterLo := rfl
@[simp] theorem respond_nIterHi (r : Resp) (d : Word) : (s.respond r d).nIterHi = s.nIterHi := rfl
@[simp] theorem respond_key (r : Resp) (d : Word) : (s.respond r d).key = s.key := rfl
@[simp] theorem respond_fixa (r : Resp) (d : Word) : (s.respond r d).fixa = s.fixa := rfl
@[simp] theorem respond_fixb (r : Resp) (d : Word) : (s.respond r d).fixb = s.fixb := rfl
@[simp] theorem respond_fixc (r : Resp) (d : Word) : (s.respond r d).fixc = s.fixc := rfl
@[simp] theorem respond_out (r : Resp) (d : Word) : (s.respond r d).out = s.out := rfl
@[simp] theorem respond_nUsedLo (r : Resp) (d : Word) : (s.respond r d).nUsedLo = s.nUsedLo := rfl
@[simp] theorem respond_nUsedHi (r : Resp) (d : Word) : (s.respond r d).nUsedHi = s.nUsedHi := rfl
@[simp] theorem respond_ram (r : Resp) (d : Word) : (s.respond r d).ram = s.ram := rfl
@[simp] theorem respond_engine (r : Resp) (d : Word) : (s.respond r d).engine = s.engine := rfl
@[simp] theorem respond_port (r : Resp) (d : Word) : (s.respond r d).port = s.port := rfl
@[simp] theorem respond_rstN (r : Resp) (d : Word) : (s.respond r d).rstN = s.rstN := rfl
@[simp] theorem respond_events (r : Resp) (d : Word) : (s.respond r d).events = s.events := rfl
@[simp] theorem respond_busRsp (r : Resp) (d : Word) : (s.respond r d).busRsp = some { resp := r, data := d } := rfl
@[simp] theorem respond_draws (r : Resp) (d : Word) : (s.respond r d).draws = s.draws := rfl

@[simp] theorem noResponse_build : s.noResponse.build = s.build := rfl
@[simp] theorem noResponse_status : s.noResponse.status = s.status := rfl
@[simp] theorem noResponse_irqEn : s.noResponse.irqEn = s.irqEn := rfl
@[simp] theorem noResponse_algId : s.noResponse.algId = s.algId := rfl
@[simp] theorem noResponse_ctrWidth : s.noResponse.ctrWidth = s.ctrWidth := rfl
@[simp] theorem noResponse_nIterLo : s.noResponse.nIterLo = s.nIterLo := rfl
@[simp] theorem noResponse_nIterHi : s.noResponse.nIterHi = s.nIterHi := rfl
@[simp] theorem noResponse_key : s.noResponse.key = s.key := rfl
@[simp] theorem noResponse_fixa : s.noResponse.fixa = s.fixa := rfl
@[simp] theorem noResponse_fixb : s.noResponse.fixb = s.fixb := rfl
@[simp] theorem noResponse_fixc : s.noResponse.fixc = s.fixc := rfl
@[simp] theorem noResponse_out : s.noResponse.out = s.out := rfl
@[simp] theorem noResponse_nUsedLo : s.noResponse.nUsedLo = s.nUsedLo := rfl
@[simp] theorem noResponse_nUsedHi : s.noResponse.nUsedHi = s.nUsedHi := rfl
@[simp] theorem noResponse_ram : s.noResponse.ram = s.ram := rfl
@[simp] theorem noResponse_engine : s.noResponse.engine = s.engine := rfl
@[simp] theorem noResponse_port : s.noResponse.port = s.port := rfl
@[simp] theorem noResponse_rstN : s.noResponse.rstN = s.rstN := rfl
@[simp] theorem noResponse_events : s.noResponse.events = s.events := rfl
@[simp] theorem noResponse_busRsp : s.noResponse.busRsp = none := rfl
@[simp] theorem noResponse_draws : s.noResponse.draws = s.draws := rfl

@[simp] theorem refuseAccess_build : s.refuseAccess.build = s.build := rfl
@[simp] theorem refuseAccess_status : s.refuseAccess.status = s.status.refused := rfl
@[simp] theorem refuseAccess_irqEn : s.refuseAccess.irqEn = s.irqEn := rfl
@[simp] theorem refuseAccess_algId : s.refuseAccess.algId = s.algId := rfl
@[simp] theorem refuseAccess_ctrWidth : s.refuseAccess.ctrWidth = s.ctrWidth := rfl
@[simp] theorem refuseAccess_nIterLo : s.refuseAccess.nIterLo = s.nIterLo := rfl
@[simp] theorem refuseAccess_nIterHi : s.refuseAccess.nIterHi = s.nIterHi := rfl
@[simp] theorem refuseAccess_key : s.refuseAccess.key = s.key := rfl
@[simp] theorem refuseAccess_fixa : s.refuseAccess.fixa = s.fixa := rfl
@[simp] theorem refuseAccess_fixb : s.refuseAccess.fixb = s.fixb := rfl
@[simp] theorem refuseAccess_fixc : s.refuseAccess.fixc = s.fixc := rfl
@[simp] theorem refuseAccess_out : s.refuseAccess.out = s.out := rfl
@[simp] theorem refuseAccess_nUsedLo : s.refuseAccess.nUsedLo = s.nUsedLo := rfl
@[simp] theorem refuseAccess_nUsedHi : s.refuseAccess.nUsedHi = s.nUsedHi := rfl
@[simp] theorem refuseAccess_ram : s.refuseAccess.ram = s.ram := rfl
@[simp] theorem refuseAccess_engine : s.refuseAccess.engine = s.engine := rfl
@[simp] theorem refuseAccess_port : s.refuseAccess.port = s.port := rfl
@[simp] theorem refuseAccess_rstN : s.refuseAccess.rstN = s.rstN := rfl
@[simp] theorem refuseAccess_events : s.refuseAccess.events = s.events := rfl
@[simp] theorem refuseAccess_busRsp : s.refuseAccess.busRsp = s.busRsp := rfl
@[simp] theorem refuseAccess_draws : s.refuseAccess.draws = s.draws := rfl

@[simp] theorem raiseError_build (c : ErrCode) : (s.raiseError c).build = s.build := rfl
@[simp] theorem raiseError_status (c : ErrCode) : (s.raiseError c).status = s.status.rejected c := rfl
@[simp] theorem raiseError_irqEn (c : ErrCode) : (s.raiseError c).irqEn = s.irqEn := rfl
@[simp] theorem raiseError_algId (c : ErrCode) : (s.raiseError c).algId = s.algId := rfl
@[simp] theorem raiseError_ctrWidth (c : ErrCode) : (s.raiseError c).ctrWidth = s.ctrWidth := rfl
@[simp] theorem raiseError_nIterLo (c : ErrCode) : (s.raiseError c).nIterLo = s.nIterLo := rfl
@[simp] theorem raiseError_nIterHi (c : ErrCode) : (s.raiseError c).nIterHi = s.nIterHi := rfl
@[simp] theorem raiseError_key (c : ErrCode) : (s.raiseError c).key = s.key := rfl
@[simp] theorem raiseError_fixa (c : ErrCode) : (s.raiseError c).fixa = s.fixa := rfl
@[simp] theorem raiseError_fixb (c : ErrCode) : (s.raiseError c).fixb = s.fixb := rfl
@[simp] theorem raiseError_fixc (c : ErrCode) : (s.raiseError c).fixc = s.fixc := rfl
@[simp] theorem raiseError_out (c : ErrCode) : (s.raiseError c).out = s.out := rfl
@[simp] theorem raiseError_nUsedLo (c : ErrCode) : (s.raiseError c).nUsedLo = s.nUsedLo := rfl
@[simp] theorem raiseError_nUsedHi (c : ErrCode) : (s.raiseError c).nUsedHi = s.nUsedHi := rfl
@[simp] theorem raiseError_ram (c : ErrCode) : (s.raiseError c).ram = s.ram := rfl
@[simp] theorem raiseError_engine (c : ErrCode) : (s.raiseError c).engine = s.engine := rfl
@[simp] theorem raiseError_port (c : ErrCode) : (s.raiseError c).port = s.port := rfl
@[simp] theorem raiseError_rstN (c : ErrCode) : (s.raiseError c).rstN = s.rstN := rfl
@[simp] theorem raiseError_events (c : ErrCode) : (s.raiseError c).events = s.events := rfl
@[simp] theorem raiseError_busRsp (c : ErrCode) : (s.raiseError c).busRsp = s.busRsp := rfl
@[simp] theorem raiseError_draws (c : ErrCode) : (s.raiseError c).draws = s.draws := rfl

@[simp] theorem accept_build (r : Run) : (s.accept r).build = s.build := rfl
@[simp] theorem accept_status (r : Run) : (s.accept r).status = s.status.accepted := rfl
@[simp] theorem accept_irqEn (r : Run) : (s.accept r).irqEn = s.irqEn := rfl
@[simp] theorem accept_algId (r : Run) : (s.accept r).algId = s.algId := rfl
@[simp] theorem accept_ctrWidth (r : Run) : (s.accept r).ctrWidth = s.ctrWidth := rfl
@[simp] theorem accept_nIterLo (r : Run) : (s.accept r).nIterLo = s.nIterLo := rfl
@[simp] theorem accept_nIterHi (r : Run) : (s.accept r).nIterHi = s.nIterHi := rfl
@[simp] theorem accept_key (r : Run) : (s.accept r).key = s.key := rfl
@[simp] theorem accept_fixa (r : Run) : (s.accept r).fixa = s.fixa := rfl
@[simp] theorem accept_fixb (r : Run) : (s.accept r).fixb = s.fixb := rfl
@[simp] theorem accept_fixc (r : Run) : (s.accept r).fixc = s.fixc := rfl
@[simp] theorem accept_out (r : Run) : (s.accept r).out = s.out := rfl
@[simp] theorem accept_nUsedLo (r : Run) : (s.accept r).nUsedLo = if r.op = .encodeCounter then s.nUsedLo else BitVec.ofNat 32 r.n := rfl
@[simp] theorem accept_nUsedHi (r : Run) : (s.accept r).nUsedHi = if r.op = .encodeCounter then s.nUsedHi else BitVec.ofNat 32 (r.n / 2 ^ 32) := rfl
@[simp] theorem accept_ram (r : Run) : (s.accept r).ram = s.ram := rfl
@[simp] theorem accept_engine (r : Run) : (s.accept r).engine = .run r := rfl
@[simp] theorem accept_port (r : Run) : (s.accept r).port = s.port := rfl
@[simp] theorem accept_rstN (r : Run) : (s.accept r).rstN = s.rstN := rfl
@[simp] theorem accept_events (r : Run) : (s.accept r).events = s.events := rfl
@[simp] theorem accept_busRsp (r : Run) : (s.accept r).busRsp = s.busRsp := rfl
@[simp] theorem accept_draws (r : Run) : (s.accept r).draws = s.draws := rfl

@[simp] theorem issue_build (r : Run) : (s.issue r).build = s.build := rfl
@[simp] theorem issue_status (r : Run) : (s.issue r).status = s.status := rfl
@[simp] theorem issue_irqEn (r : Run) : (s.issue r).irqEn = s.irqEn := rfl
@[simp] theorem issue_algId (r : Run) : (s.issue r).algId = s.algId := rfl
@[simp] theorem issue_ctrWidth (r : Run) : (s.issue r).ctrWidth = s.ctrWidth := rfl
@[simp] theorem issue_nIterLo (r : Run) : (s.issue r).nIterLo = s.nIterLo := rfl
@[simp] theorem issue_nIterHi (r : Run) : (s.issue r).nIterHi = s.nIterHi := rfl
@[simp] theorem issue_key (r : Run) : (s.issue r).key = s.key := rfl
@[simp] theorem issue_fixa (r : Run) : (s.issue r).fixa = s.fixa := rfl
@[simp] theorem issue_fixb (r : Run) : (s.issue r).fixb = s.fixb := rfl
@[simp] theorem issue_fixc (r : Run) : (s.issue r).fixc = s.fixc := rfl
@[simp] theorem issue_out (r : Run) : (s.issue r).out = s.out := rfl
@[simp] theorem issue_nUsedLo (r : Run) : (s.issue r).nUsedLo = s.nUsedLo := rfl
@[simp] theorem issue_nUsedHi (r : Run) : (s.issue r).nUsedHi = s.nUsedHi := rfl
@[simp] theorem issue_ram (r : Run) : (s.issue r).ram = s.ram := rfl
@[simp] theorem issue_engine (r : Run) : (s.issue r).engine = .run { r with waiting := true } := rfl
@[simp] theorem issue_port (r : Run) : (s.issue r).port = { s.port with req := requestBeats (r.request r.i) } := rfl
@[simp] theorem issue_rstN (r : Run) : (s.issue r).rstN = s.rstN := rfl
@[simp] theorem issue_events (r : Run) : (s.issue r).events = s.events := rfl
@[simp] theorem issue_busRsp (r : Run) : (s.issue r).busRsp = s.busRsp := rfl
@[simp] theorem issue_draws (r : Run) : (s.issue r).draws = s.draws := rfl

@[simp] theorem receive_build (r : Run) : (s.receive r).build = s.build := rfl
@[simp] theorem receive_status (r : Run) : (s.receive r).status = s.status := rfl
@[simp] theorem receive_irqEn (r : Run) : (s.receive r).irqEn = s.irqEn := rfl
@[simp] theorem receive_algId (r : Run) : (s.receive r).algId = s.algId := rfl
@[simp] theorem receive_ctrWidth (r : Run) : (s.receive r).ctrWidth = s.ctrWidth := rfl
@[simp] theorem receive_nIterLo (r : Run) : (s.receive r).nIterLo = s.nIterLo := rfl
@[simp] theorem receive_nIterHi (r : Run) : (s.receive r).nIterHi = s.nIterHi := rfl
@[simp] theorem receive_key (r : Run) : (s.receive r).key = s.key := rfl
@[simp] theorem receive_fixa (r : Run) : (s.receive r).fixa = s.fixa := rfl
@[simp] theorem receive_fixb (r : Run) : (s.receive r).fixb = s.fixb := rfl
@[simp] theorem receive_fixc (r : Run) : (s.receive r).fixc = s.fixc := rfl
@[simp] theorem receive_out (r : Run) : (s.receive r).out = s.out := rfl
@[simp] theorem receive_nUsedLo (r : Run) : (s.receive r).nUsedLo = s.nUsedLo := rfl
@[simp] theorem receive_nUsedHi (r : Run) : (s.receive r).nUsedHi = s.nUsedHi := rfl
@[simp] theorem receive_ram (r : Run) : (s.receive r).ram = s.ram := rfl
@[simp] theorem receive_engine (r : Run) : (s.receive r).engine = .run { r with waiting := false, i := r.i + 1, acc := r.acc ++ s.port.got } := rfl
@[simp] theorem receive_port (r : Run) : (s.receive r).port = { s.port with got := [], gotLast := false } := rfl
@[simp] theorem receive_rstN (r : Run) : (s.receive r).rstN = s.rstN := rfl
@[simp] theorem receive_events (r : Run) : (s.receive r).events = s.events := rfl
@[simp] theorem receive_busRsp (r : Run) : (s.receive r).busRsp = s.busRsp := rfl
@[simp] theorem receive_draws (r : Run) : (s.receive r).draws = s.draws := rfl

@[simp] theorem complete_build (r : Run) : (s.complete r).build = s.build := rfl
@[simp] theorem complete_status (r : Run) : (s.complete r).status = s.status.completed := rfl
@[simp] theorem complete_irqEn (r : Run) : (s.complete r).irqEn = s.irqEn := rfl
@[simp] theorem complete_algId (r : Run) : (s.complete r).algId = s.algId := rfl
@[simp] theorem complete_ctrWidth (r : Run) : (s.complete r).ctrWidth = s.ctrWidth := rfl
@[simp] theorem complete_nIterLo (r : Run) : (s.complete r).nIterLo = s.nIterLo := rfl
@[simp] theorem complete_nIterHi (r : Run) : (s.complete r).nIterHi = s.nIterHi := rfl
@[simp] theorem complete_key (r : Run) : (s.complete r).key = s.key := rfl
@[simp] theorem complete_fixa (r : Run) : (s.complete r).fixa = s.fixa := rfl
@[simp] theorem complete_fixb (r : Run) : (s.complete r).fixb = s.fixb := rfl
@[simp] theorem complete_fixc (r : Run) : (s.complete r).fixc = s.fixc := rfl
@[simp] theorem complete_out (r : Run) : (s.complete r).out = s.out := rfl
@[simp] theorem complete_nUsedLo (r : Run) : (s.complete r).nUsedLo = s.nUsedLo := rfl
@[simp] theorem complete_nUsedHi (r : Run) : (s.complete r).nUsedHi = s.nUsedHi := rfl
@[simp] theorem complete_ram (r : Run) : (s.complete r).ram = Memory.storeBytes s.ram r.outOff.toNat r.result := rfl
@[simp] theorem complete_engine (r : Run) : (s.complete r).engine = .idle := rfl
@[simp] theorem complete_port (r : Run) : (s.complete r).port = s.port := rfl
@[simp] theorem complete_rstN (r : Run) : (s.complete r).rstN = s.rstN := rfl
@[simp] theorem complete_events (r : Run) : (s.complete r).events = s.events := rfl
@[simp] theorem complete_busRsp (r : Run) : (s.complete r).busRsp = s.busRsp := rfl
@[simp] theorem complete_draws (r : Run) : (s.complete r).draws = s.draws := rfl

@[simp] theorem resetHigh_build : s.resetHigh.build = s.build := rfl
@[simp] theorem resetHigh_status : s.resetHigh.status = s.status := rfl
@[simp] theorem resetHigh_irqEn : s.resetHigh.irqEn = s.irqEn := rfl
@[simp] theorem resetHigh_algId : s.resetHigh.algId = s.algId := rfl
@[simp] theorem resetHigh_ctrWidth : s.resetHigh.ctrWidth = s.ctrWidth := rfl
@[simp] theorem resetHigh_nIterLo : s.resetHigh.nIterLo = s.nIterLo := rfl
@[simp] theorem resetHigh_nIterHi : s.resetHigh.nIterHi = s.nIterHi := rfl
@[simp] theorem resetHigh_key : s.resetHigh.key = s.key := rfl
@[simp] theorem resetHigh_fixa : s.resetHigh.fixa = s.fixa := rfl
@[simp] theorem resetHigh_fixb : s.resetHigh.fixb = s.fixb := rfl
@[simp] theorem resetHigh_fixc : s.resetHigh.fixc = s.fixc := rfl
@[simp] theorem resetHigh_out : s.resetHigh.out = s.out := rfl
@[simp] theorem resetHigh_nUsedLo : s.resetHigh.nUsedLo = s.nUsedLo := rfl
@[simp] theorem resetHigh_nUsedHi : s.resetHigh.nUsedHi = s.nUsedHi := rfl
@[simp] theorem resetHigh_ram : s.resetHigh.ram = s.ram := rfl
@[simp] theorem resetHigh_engine : s.resetHigh.engine = s.engine := rfl
@[simp] theorem resetHigh_port : s.resetHigh.port = s.port := rfl
@[simp] theorem resetHigh_rstN : s.resetHigh.rstN = true := rfl
@[simp] theorem resetHigh_events : s.resetHigh.events = s.events := rfl
@[simp] theorem resetHigh_busRsp : s.resetHigh.busRsp = s.busRsp := rfl
@[simp] theorem resetHigh_draws : s.resetHigh.draws = s.draws := rfl

@[simp] theorem resetLow_build : s.resetLow.build = s.build := rfl
@[simp] theorem resetLow_status : s.resetLow.status = State.reset.status := rfl
@[simp] theorem resetLow_irqEn : s.resetLow.irqEn = State.reset.irqEn := rfl
@[simp] theorem resetLow_algId : s.resetLow.algId = State.reset.algId := rfl
@[simp] theorem resetLow_ctrWidth : s.resetLow.ctrWidth = State.reset.ctrWidth := rfl
@[simp] theorem resetLow_nIterLo : s.resetLow.nIterLo = State.reset.nIterLo := rfl
@[simp] theorem resetLow_nIterHi : s.resetLow.nIterHi = State.reset.nIterHi := rfl
@[simp] theorem resetLow_key : s.resetLow.key = State.reset.key := rfl
@[simp] theorem resetLow_fixa : s.resetLow.fixa = State.reset.fixa := rfl
@[simp] theorem resetLow_fixb : s.resetLow.fixb = State.reset.fixb := rfl
@[simp] theorem resetLow_fixc : s.resetLow.fixc = State.reset.fixc := rfl
@[simp] theorem resetLow_out : s.resetLow.out = State.reset.out := rfl
@[simp] theorem resetLow_nUsedLo : s.resetLow.nUsedLo = State.reset.nUsedLo := rfl
@[simp] theorem resetLow_nUsedHi : s.resetLow.nUsedHi = State.reset.nUsedHi := rfl
@[simp] theorem resetLow_ram : s.resetLow.ram = s.resetRam := rfl
@[simp] theorem resetLow_engine : s.resetLow.engine = State.reset.engine := rfl
@[simp] theorem resetLow_port : s.resetLow.port = State.reset.port := rfl
@[simp] theorem resetLow_rstN : s.resetLow.rstN = false := rfl
@[simp] theorem resetLow_events : s.resetLow.events = s.events := rfl
@[simp] theorem resetLow_busRsp : s.resetLow.busRsp = State.reset.busRsp := rfl
@[simp] theorem resetLow_draws : s.resetLow.draws = s.resetDrawCount := rfl

end Sys2Proof.Machine.State
end

