-- ==== Sys2Proof/Laws/Memory.lean ====
section
/-! SUPPORT. What the buffer RAM operations do: reads after writes, and that every write keeps the canonical form. -/

namespace Sys2Proof.Machine

namespace Memory

@[simp] theorem find_nil (a : Nat) : find [] a = none := rfl

theorem find_cons (b : Nat) (v : Byte) (m : Memory) (a : Nat) :
    find ((b, v) :: m) a = if b = a then some v else find m a := rfl

theorem find_eq_none {m : Memory} {a : Nat} (h : ∀ c ∈ m, c.1 ≠ a) : find m a = none := by
  induction m with
  | nil => rfl
  | cons c m ih =>
    obtain ⟨b, v⟩ := c
    have hb : b ≠ a := h (b, v) (by simp)
    rw [find_cons, if_neg hb]
    exact ih fun d hd => h d (by simp [hd])

@[simp] theorem find_store_self (m : Memory) (a : Nat) (v : Byte) : find (store m a v) a = some v := by
  induction m with
  | nil => simp [store, find_cons]
  | cons c m ih =>
    obtain ⟨b, u⟩ := c
    simp only [store]
    split
    · simp [find_cons]
    · split
      · simp [find_cons]
      · next h1 h2 => rw [find_cons, if_neg (by omega), ih]

theorem find_store_of_ne (m : Memory) {a a' : Nat} (v : Byte) (h : a' ≠ a) : find (store m a v) a' = find m a' := by
  induction m with
  | nil => simp [store, find_cons, Ne.symm h]
  | cons c m ih =>
    obtain ⟨b, u⟩ := c
    simp only [store]
    split
    · rw [find_cons, if_neg (Ne.symm h)]
    · split
      · next h1 h2 => subst h2; simp [find_cons, Ne.symm h]
      · simp only [find_cons, ih]

theorem mem_store {m : Memory} {a : Nat} {v : Byte} {c : Host.Cell} (h : c ∈ store m a v) : c = (a, v) ∨ c ∈ m := by
  induction m with
  | nil => simpa [store] using h
  | cons d m ih =>
    obtain ⟨b, u⟩ := d
    simp only [store] at h
    split at h
    · simpa using h
    · split at h
      · simp only [List.mem_cons] at h ⊢; tauto
      · simp only [List.mem_cons] at h ⊢
        rcases h with h | h
        · exact .inr (.inl h)
        · exact (ih h).imp_right .inr

theorem wf_store {m : Memory} (h : wf m) (a : Nat) (v : Byte) : wf (store m a v) := by
  induction m with
  | nil => simp [store, wf]
  | cons c m ih =>
    obtain ⟨b, u⟩ := c
    obtain ⟨hb, hm⟩ := List.pairwise_cons.mp h
    simp only [store]
    split
    · next hab =>
      refine List.pairwise_cons.mpr ⟨fun d hd => ?_, h⟩
      rcases List.mem_cons.mp hd with rfl | hd
      · exact hab
      · exact lt_trans hab (hb d hd)
    · split
      · next h2 => subst h2; exact List.pairwise_cons.mpr ⟨hb, hm⟩
      · refine List.pairwise_cons.mpr ⟨fun d hd => ?_, ih hm⟩
        rcases mem_store hd with rfl | hd
        · show b < a; omega
        · exact hb d hd

theorem wf_storeBytes {m : Memory} (h : wf m) (a : Nat) (v : Bytes) : wf (storeBytes m a v) := by
  induction v generalizing m a with
  | nil => exact h
  | cons b v ih => exact ih (wf_store h a b) (a + 1)

theorem mem_storeBytes {m : Memory} {a : Nat} {v : Bytes} {c : Host.Cell} (h : c ∈ storeBytes m a v) :
    c ∈ m ∨ (a ≤ c.1 ∧ c.1 < a + v.length) := by
  induction v generalizing m a with
  | nil => exact .inl h
  | cons b v ih =>
    rcases ih h with h | h
    · rcases mem_store h with rfl | h
      · exact .inr (by simp)
      · exact .inl h
    · exact .inr (by simp only [List.length_cons]; omega)

theorem find_storeBytes_outside (m : Memory) {a : Nat} {v : Bytes} {x : Nat} (h : x < a ∨ a + v.length ≤ x) :
    find (storeBytes m a v) x = find m x := by
  induction v generalizing m a with
  | nil => rfl
  | cons b v ih =>
    simp only [List.length_cons] at h
    rw [storeBytes, ih _ (by omega), find_store_of_ne _ _ (by omega)]

theorem find_storeBytes_inside (m : Memory) (a : Nat) (v : Bytes) {k : Nat} (h : k < v.length) :
    find (storeBytes m a v) (a + k) = some v[k] := by
  induction v generalizing m a k with
  | nil => simp at h
  | cons b v ih =>
    cases k with
    | zero => rw [storeBytes, find_storeBytes_outside _ (by omega)]; simp
    | succ k =>
      rw [storeBytes, show a + (k + 1) = a + 1 + k by omega, ih _ _ (by simpa using h)]
      simp

end Memory

namespace State

/-- A byte depends on the buffer RAM alone. -/
theorem ramByte_congr {s t : State} (h : t.ram = s.ram) (a : Nat) : t.ramByte a = s.ramByte a := by
  simp [ramByte, h]

theorem ramByte_outside {s t : State} {off : Nat} {v : Bytes} (h : t.ram = Memory.storeBytes s.ram off v) {a : Nat}
    (ha : a < off ∨ off + v.length ≤ a) : t.ramByte a = s.ramByte a := by
  simp [ramByte, h, Memory.find_storeBytes_outside _ ha]

theorem ramByte_inside {s t : State} {off : Nat} {v : Bytes} (h : t.ram = Memory.storeBytes s.ram off v) {k : Nat}
    (hk : k < v.length) : t.ramByte (off + k) = v[k] := by
  simp [ramByte, h, Memory.find_storeBytes_inside _ _ _ hk]

@[simp] theorem length_memRead (s : State) (off n : Nat) : (s.memRead off n).length = n := by simp [memRead]

@[simp] theorem getElem_memRead (s : State) (off n k : Nat) (h : k < (s.memRead off n).length) :
    (s.memRead off n)[k] = s.ramByte (off + k) := by simp [memRead]

@[simp] theorem length_regionBytes (s : State) (p : Region) : (s.regionBytes p).length = p.len.toNat := by
  simp [regionBytes]

theorem memRead_congr {s t : State} {off n : Nat} (h : ∀ k < n, t.ramByte (off + k) = s.ramByte (off + k)) :
    t.memRead off n = s.memRead off n := by
  simp only [memRead]
  exact List.map_congr_left fun k hk => h k (List.mem_range.mp hk)

end State

@[simp] theorem length_littleEndianBytes (n v : Nat) : (littleEndianBytes n v).length = n := by
  induction n generalizing v with
  | zero => rfl
  | succ n ih => simp [littleEndianBytes, ih]

theorem getElem_littleEndianBytes (n v k : Nat) (h : k < (littleEndianBytes n v).length) :
    (littleEndianBytes n v)[k] = BitVec.ofNat 8 (v / 256 ^ k) := by
  induction n generalizing v k with
  | zero => simp at h
  | succ n ih =>
    cases k with
    | zero => simp [littleEndianBytes]
    | succ k =>
      simp only [littleEndianBytes, List.getElem_cons_succ]
      rw [ih, Nat.div_div_eq_div_mul, Nat.pow_succ, Nat.mul_comm]

end Sys2Proof.Machine
end

