-- ==== Sys2Proof/Laws/Prf.lean ====
section
/-! SUPPORT. The registry, the PRF's length and the lengths of the byte strings and beats the engine builds. -/

namespace Sys2Proof.Machine

@[simp] theorem length_prf (b : Config.Build) (alg : Byte) (key msg : Bytes) :
    (prf b alg key msg).length = digestBytes b alg := by simp [prf]

theorem openDigestBytes_pos {alg : Byte} {rows : List Config.RegistryRow} {d : Nat}
    (h : openDigestBytes alg rows = some d) : 0 < d := by
  induction rows with
  | nil => simp [openDigestBytes] at h
  | cons r rows ih =>
    simp only [openDigestBytes] at h
    split at h
    · next hr => cases h; exact hr.2
    · exact ih h

/-- Every registered digest length is a positive multiple of 8 bits (R10). -/
theorem registry_spec {b : Config.Build} {alg : Byte} {h : Nat} (hr : registry b alg = some h) :
    ∃ d, 0 < d ∧ h = 8 * d ∧ digestBytes b alg = d := by
  have key : ∃ d, 0 < d ∧ h = 8 * d := by
    simp only [registry] at hr
    split at hr
    · cases hr
    split at hr
    · cases hr; exact ⟨32, by omega, rfl⟩
    split at hr
    · cases hr; exact ⟨48, by omega, rfl⟩
    · obtain ⟨d, hd, rfl⟩ := Option.map_eq_some_iff.mp hr
      exact ⟨d, openDigestBytes_pos hd, rfl⟩
  obtain ⟨d, hd, rfl⟩ := key
  exact ⟨d, hd, rfl, by simp [digestBytes, hr]⟩

theorem digestBytes_of_registry {b : Config.Build} {alg : Byte} {h : Nat} (hr : registry b alg = some h) :
    digestBytes b alg = h / 8 := by simp [digestBytes, hr]

@[simp] theorem length_bigEndian (n v : Nat) : (bigEndian n v).length = n := by simp [bigEndian]

theorem getElem_bigEndian (n v k : Nat) (h : k < (bigEndian n v).length) :
    (bigEndian n v)[k] = BitVec.ofNat 8 (v / 2 ^ (8 * (n - 1 - k))) := by simp [bigEndian]

@[simp] theorem length_encodeCounterField (w : Width) (i : Nat) : (encodeCounterField w i).length = w.bytes := by
  simp [encodeCounterField]

theorem Width.bits_eq (w : Width) : w.bits = 8 * w.bytes := by cases w <;> rfl

theorem Width.bytes_pos (w : Width) : 0 < w.bytes := by cases w <;> decide

/-- A CTR_WIDTH value names a width exactly when it is that width's number of bits (R86). -/
theorem Width.ofField?_eq_some {v : Byte} {w : Width} : Width.ofField? v = some w ↔ v.toNat = w.bits := by
  constructor
  · intro h
    simp only [Width.ofField?] at h
    split at h
    · next hv => cases h; rw [hv]; rfl
    split at h
    · next hv => cases h; rw [hv]; rfl
    split at h
    · next hv => cases h; rw [hv]; rfl
    split at h
    · next hv => cases h; rw [hv]; rfl
    · cases h
  · intro h
    have hv : v = BitVec.ofNat 8 w.bits := by rw [← h]; simp
    subst hv
    cases w <;> rfl

/-- A CTR_WIDTH value names no width exactly when it is none of 8, 16, 24 and 32 (R86). -/
theorem Width.ofField?_eq_none {v : Byte} : Width.ofField? v = none ↔ v.toNat ∉ [8, 16, 24, 32] := by
  have h8 := @Width.ofField?_eq_some v .w8
  have h16 := @Width.ofField?_eq_some v .w16
  have h24 := @Width.ofField?_eq_some v .w24
  have h32 := @Width.ofField?_eq_some v .w32
  cases hw : Width.ofField? v with
  | none => simp_all [Width.bits]
  | some w =>
    have := Width.ofField?_eq_some.mp hw
    cases w <;> simp_all [Width.bits]

@[simp] theorem length_message (r : Run) (i : Nat) :
    (r.message i).length = r.pre.length + r.w.bytes + r.post.length := by simp [Run.message]; omega

theorem message_ne_nil (r : Run) (i : Nat) : r.message i ≠ [] := by
  have := r.w.bytes_pos
  intro h
  have := congrArg List.length h
  simp at this
  omega

@[simp] theorem length_messageBeats (alg : Byte) (msg : Bytes) : (messageBeats alg msg).length = msg.length := by
  induction msg with
  | nil => rfl
  | cons b bs ih => simp [messageBeats, ih]

@[simp] theorem length_requestBeats (q : PrfRequest) : (requestBeats q).length = q.key.length + q.msg.length := by
  simp [requestBeats]

@[simp] theorem length_responseBeats (d : Bytes) : (responseBeats d).length = d.length := by
  induction d with
  | nil => rfl
  | cons b bs ih => simp [responseBeats, ih]

@[simp] theorem length_digest (b : Config.Build) (r : Run) (i : Nat) : (r.digest b i).length = digestBytes b r.alg := by
  simp [Run.digest]

theorem accumulated_succ (b : Config.Build) (r : Run) (k : Nat) :
    r.accumulated b (k + 1) = r.accumulated b k ++ r.digest b (k + 1) := by
  simp [Run.accumulated, List.range_succ]

@[simp] theorem length_accumulated (b : Config.Build) (r : Run) (k : Nat) :
    (r.accumulated b k).length = k * digestBytes b r.alg := by
  induction k with
  | zero => simp [Run.accumulated]
  | succ k ih => rw [accumulated_succ, List.length_append, ih, length_digest, Nat.succ_mul]

end Sys2Proof.Machine
end

