-- ==== Sys2Proof/Laws/Commands.lean ====
section
/-! SUPPORT. What a CMD write can do, said once: a command is refused while busy, or rejected with its first failing check's
code, or accepted with its Run record. -/

namespace Sys2Proof.Machine

/-- The checks and Run record of each command. -/
def commandPlan (s : State) : Instr → Except ErrCode Run
  | .deriveBefore => deriveBeforePlan s
  | .deriveAfter => deriveAfterPlan s
  | .deriveMiddle => deriveMiddlePlan s
  | .counterKdf => counterKdfPlan s
  | .encodeCounter => encodeCounterPlan s

theorem exec_eq_submit (i : Instr) (s : State) : exec i s = .next (s.submit (commandPlan s i)) := by cases i <;> rfl

theorem submit_busy {s : State} (h : s.status.busy = true) (p : Except ErrCode Run) : s.submit p = s.refuseAccess := by
  simp [State.submit, h]

theorem submit_error {s : State} (h : s.status.busy = false) (c : ErrCode) : s.submit (.error c) = s.raiseError c := by
  simp [State.submit, h]

theorem submit_ok {s : State} (h : s.status.busy = false) (r : Run) : s.submit (.ok r) = s.accept r := by
  simp [State.submit, h]

/-- Everything `submit` can do. -/
theorem submit_cases (s : State) (p : Except ErrCode Run) :
    (s.status.busy = true ∧ s.submit p = s.refuseAccess) ∨
    (s.status.busy = false ∧ ∃ c, p = .error c ∧ s.submit p = s.raiseError c) ∨
    (s.status.busy = false ∧ ∃ r, p = .ok r ∧ s.submit p = s.accept r) := by
  cases hb : s.status.busy with
  | true => exact .inl ⟨rfl, submit_busy hb p⟩
  | false =>
    cases p with
    | error c => exact .inr (.inl ⟨rfl, c, rfl, submit_error hb c⟩)
    | ok r => exact .inr (.inr ⟨rfl, r, rfl, submit_ok hb r⟩)

/-- The Run record of an accepted derivation (R128). -/
def derivationRun (s : State) (op : Instr) (w : Width) (n : Nat) (pre post : Bytes) : Run :=
  { op := op, alg := s.algId, key := s.regionBytes s.key, pre := pre, post := post, w := w, n := n,
    outOff := s.out.off, outLen := s.out.len, i := 1, waiting := false, acc := [] }

theorem overlaps_eq_true {p q : Region} : p.overlaps q = true ↔
    0 < p.len.toNat ∧ 0 < q.len.toNat ∧ p.off.toNat < q.off.toNat + q.len.toNat
      ∧ q.off.toNat < p.off.toNat + p.len.toNat := by
  simp [Region.overlaps, and_assoc]

theorem all_inBounds {s : State} {inputs : List Region} :
    ((inputs ++ [s.out]).all (Region.inBounds s.build)) = true ↔
      ∀ p ∈ s.out :: inputs, p.off.toNat + p.len.toNat ≤ s.build.opmemBytes := by
  simp [Region.inBounds, or_imp, forall_and, and_comm]

theorem any_overlaps {s : State} {inputs : List Region} :
    inputs.any s.out.overlaps = true ↔
      ∃ p ∈ inputs, 0 < s.out.len.toNat ∧ 0 < p.len.toNat ∧ s.out.off.toNat < p.off.toNat + p.len.toNat
        ∧ p.off.toNat < s.out.off.toNat + s.out.len.toNat := by
  simp only [List.any_eq_true, overlaps_eq_true]

/-- A derivation whose checks all pass is given its Run record. -/
theorem derivationPlan_of_passes {s : State} {h : Nat} {w : Width} {iterations : Nat → Nat} {inputs : List Region}
    (hp : s.Passes h w (iterations h) inputs) (op : Instr) (pre post : Bytes) :
    derivationPlan s op iterations inputs pre post = .ok (derivationRun s op w (iterations h) pre post) := by
  have hb := all_inBounds.mpr hp.bounds
  have ho : inputs.any s.out.overlaps = false := by
    rw [Bool.eq_false_iff]
    intro hc
    obtain ⟨p, hm, hx⟩ := any_overlaps.mp hc
    exact hp.disjoint p hm hx
  simp only [derivationPlan, hp.registered, Width.ofField?_eq_some.mpr hp.width]
  rw [if_neg (by have := hp.count; omega), if_neg (by have := hp.outLen; omega), hb, ho]
  simp [derivationRun]

/-- A derivation that is given a Run record has passed every check. -/
theorem passes_of_derivationPlan {s : State} {iterations : Nat → Nat} {inputs : List Region} {op : Instr}
    {pre post : Bytes} {r : Run} (hr : derivationPlan s op iterations inputs pre post = .ok r) :
    ∃ h w, s.Passes h w (iterations h) inputs ∧ r = derivationRun s op w (iterations h) pre post := by
  simp only [derivationPlan] at hr
  split at hr
  · cases hr
  next h hreg =>
  split at hr
  · cases hr
  next w hw =>
  split at hr
  · cases hr
  next hn =>
  split at hr
  · cases hr
  next hl =>
  split at hr
  · cases hr
  next hb =>
  split at hr
  · cases hr
  next ho =>
  cases hr
  refine ⟨h, w, ⟨hreg, Width.ofField?_eq_some.mp hw, by omega, by omega, all_inBounds.mp (by simpa using hb), ?_⟩, rfl⟩
  intro p hp hx
  exact ho (any_overlaps.mpr ⟨p, hp, hx⟩)

/-- A derivation some check of which fails is rejected with the first one's code (R183). -/
theorem derivationPlan_of_failure {s : State} {iterations : Nat → Nat} {inputs : List Region} {c : BitVec 4}
    (hf : s.FirstFailure iterations inputs c) (op : Instr) (pre post : Bytes) :
    ∃ e : ErrCode, e.code = c ∧ derivationPlan s op iterations inputs pre post = .error e := by
  have hwidth : s.ctrWidth.toNat ∈ [8, 16, 24, 32] → ∃ w, Width.ofField? s.ctrWidth = some w := by
    intro hm
    cases hw : Width.ofField? s.ctrWidth with
    | none => exact absurd hm (Width.ofField?_eq_none.mp hw)
    | some w => exact ⟨w, rfl⟩
  rcases hf with ⟨hreg, rfl⟩ | ⟨h, hreg, hf⟩
  · exact ⟨.unsupportedHashAlgorithm, rfl, by simp [derivationPlan, hreg]⟩
  rcases hf with ⟨hw, rfl⟩ | ⟨hw, hf⟩
  · exact ⟨.unsupportedCounterWidth, rfl, by simp [derivationPlan, hreg, Width.ofField?_eq_none.mpr hw]⟩
  obtain ⟨w, hw⟩ := hwidth hw
  rw [Width.ofField?_eq_some.mp hw] at hf
  simp only [derivationPlan, hreg, hw]
  rcases hf with ⟨hn, rfl⟩ | ⟨hn, hf⟩
  · exact ⟨.iterationCountTooHigh, rfl, if_pos hn⟩
  rw [if_neg (Nat.not_lt.mpr hn)]
  rcases hf with ⟨hl, rfl⟩ | ⟨hl, hf⟩
  · exact ⟨.outputExceedsAccumulator, rfl, if_pos hl⟩
  rw [if_neg (Nat.not_lt.mpr hl)]
  rcases hf with ⟨⟨p, hp, hb⟩, rfl⟩ | ⟨hb, ho, rfl⟩
  · refine ⟨.regionOutOfBounds, rfl, if_pos ?_⟩
    rw [Bool.not_eq_true', Bool.eq_false_iff]
    intro hc
    exact absurd (all_inBounds.mp hc p hp) (Nat.not_le.mpr hb)
  · refine ⟨.regionOverlap, rfl, ?_⟩
    rw [if_neg (by rw [all_inBounds.mpr hb]; simp), if_pos (any_overlaps.mpr ho)]

/-- ENCODE_COUNTER that is given a Run record has passed both checks. -/
theorem passes_of_encodeCounterPlan {s : State} {r : Run} (hr : encodeCounterPlan s = .ok r) :
    ∃ w, s.ctrWidth.toNat = w.bits ∧ s.out.off.toNat + w.bytes ≤ s.build.opmemBytes ∧
      r = { op := .encodeCounter, alg := s.algId, key := [], pre := encodeCounterField w s.nIter, post := [], w := w,
            n := 0, outOff := s.out.off, outLen := BitVec.ofNat 32 w.bytes, i := 1, waiting := false, acc := [] } := by
  simp only [encodeCounterPlan] at hr
  split at hr
  · cases hr
  next w hw =>
  split at hr
  · cases hr
  next hb => cases hr; exact ⟨w, Width.ofField?_eq_some.mp hw, by omega, rfl⟩

end Sys2Proof.Machine
end

