-- ==== Sys2Proof/Laws/Bus.lean ====
section
/-! SUPPORT. What a step does with each event, and what a host transaction does, said once. -/

namespace Sys2Proof.Machine

/-- A step performs the oldest event in the state it leaves. -/
theorem step_of_event {s : State} {e : Event} {es : List Event} (h : s.events = e :: es) :
    step s = (s.withEvents es).perform e := by simp [step, State.nextEvent, h]

theorem step_of_no_event {s : State} (h : s.events = []) : step s = .next s := by simp [step, State.nextEvent, h]

/-- A host address `BLOCK_BASE + o` of the block is its offset `o` (R51). -/
theorem offsetOf?_of_eq {b : Config.Build} {a : Word} {o : Nat} (h : a.toNat = b.blockBase + o) (ho : o < 0x20000) :
    Build.offsetOf? b a = some o := by
  rw [Config.Build.blockBase] at h
  rw [Build.offsetOf?, if_pos (by omega)]
  congr 1
  omega

theorem offsetOf?_eq_some {b : Config.Build} {a : Word} {o : Nat} (h : Build.offsetOf? b a = some o) :
    a.toNat = b.blockBase + o ∧ o < 0x20000 := by
  rw [Build.offsetOf?] at h
  rw [Config.Build.blockBase]
  split at h
  · cases h; omega
  · cases h

theorem offsetOf?_outside {b : Config.Build} {a : Word} (h : a.toNat < b.blockBase ∨ b.blockBase + 0x20000 ≤ a.toNat) :
    Build.offsetOf? b a = none := by
  rw [Config.Build.blockBase] at h
  rw [Build.offsetOf?, if_neg (by omega)]

/-- The block's own addresses fit the 32-bit bus (R10, R51). -/
theorem toNat_address (b : Config.Build) {o : Nat} (ho : o < 0x20000) : (Build.address b o).toNat = b.blockBase + o := by
  have := b.blockPage.isLt
  simp only [Build.address, BitVec.toNat_ofNat, Config.Build.blockBase]
  omega

theorem opmemBytes_bounds (b : Config.Build) : 4 ≤ b.opmemBytes ∧ b.opmemBytes ≤ 65536 := by
  have := b.opmemLess1.isLt
  simp only [Config.Build.opmemBytes]
  omega

theorem Size.bytes_cases (z : Size) : z.bytes = 1 ∨ z.bytes = 2 ∨ z.bytes = 4 := by cases z <;> simp [Size.bytes]

theorem target_csr (b : Config.Build) {o : Nat} (h : o < 0x1000) (h4 : o % 4 = 0) : Build.target b o .word = .csr o := by
  simp [Build.target, h, h4]

theorem target_buffer (b : Config.Build) {o : Nat} {z : Size} (h : 0x10000 ≤ o) (hb : o + z.bytes ≤ 0x10000 + b.opmemBytes)
    (ha : (o - 0x10000) % z.bytes = 0) : Build.target b o z = .buffer (o - 0x10000) := by
  rw [Build.target, if_neg (by omega), if_pos ⟨h, hb, ha⟩]

/-- What an access names, said back. -/
theorem target_spec (b : Config.Build) (o : Nat) (z : Size) :
    match Build.target b o z with
    | .csr p => p = o ∧ o < 0x1000 ∧ z = .word ∧ o % 4 = 0
    | .buffer p => 0x10000 ≤ o ∧ p = o - 0x10000 ∧ p + z.bytes ≤ b.opmemBytes ∧ p % z.bytes = 0
    | .illegal => (o < 0x1000 ∧ (z ≠ .word ∨ o % 4 ≠ 0)) ∨ (0x1000 ≤ o ∧ o < 0x10000) ∨
        (0x10000 ≤ o ∧ (0x10000 + b.opmemBytes < o + z.bytes ∨ (o - 0x10000) % z.bytes ≠ 0)) := by
  by_cases h1 : o < 0x1000
  · by_cases h2 : z = .word ∧ o % 4 = 0
    · obtain ⟨rfl, h2⟩ := h2
      simp [target_csr b h1 h2, h1, h2]
    · have : Build.target b o z = .illegal := by rw [Build.target, if_pos h1, if_neg h2]
      rw [this]
      left
      exact ⟨h1, by tauto⟩
  · by_cases h2 : 0x10000 ≤ o ∧ o + z.bytes ≤ 0x10000 + b.opmemBytes ∧ (o - 0x10000) % z.bytes = 0
    · rw [target_buffer b h2.1 h2.2.1 h2.2.2]
      exact ⟨h2.1, rfl, by omega, h2.2.2⟩
    · have : Build.target b o z = .illegal := by rw [Build.target, if_neg h1, if_neg h2]
      rw [this]
      show _ ∨ _ ∨ _
      right
      by_cases h3 : o < 0x10000
      · exact .inl ⟨by omega, h3⟩
      · refine .inr ⟨by omega, ?_⟩
        by_contra hc
        exact h2 ⟨by omega, by omega, by_contra fun h => hc (.inr h)⟩

/-- A legal transaction that reaches the block out of reset is a read or write at its offset. -/
theorem transact_read {s : State} {a : Word} {z : Size} {o : Nat} (hr : s.rstN = true)
    (ha : Build.offsetOf? s.build a = some o) : s.transact (.read a z) = .next (s.readOffset o z) := by
  simp only [State.transact, hr, if_true, ha]

theorem transact_write {s : State} {a v : Word} {z : Size} {o : Nat} (hr : s.rstN = true)
    (ha : Build.offsetOf? s.build a = some o) : s.transact (.write a z v) = s.writeOffset o z v := by
  simp only [State.transact, hr, if_true, ha]

theorem transact_held {s : State} (hr : s.rstN = false) (t : Transaction) : s.transact t = .next s.noResponse := by
  simp [State.transact, hr]

theorem transact_outside {s : State} {t : Transaction}
    (h : match t with
      | .read a _ => Build.offsetOf? s.build a = none
      | .write a _ _ => Build.offsetOf? s.build a = none) : s.transact t = .next s.noResponse := by
  cases hr : s.rstN with
  | false => exact transact_held hr t
  | true =>
    cases t with
    | read a z => simp only [State.transact, hr, if_true, show Build.offsetOf? s.build a = none from h]
    | write a z v => simp only [State.transact, hr, if_true, show Build.offsetOf? s.build a = none from h]

/-- The register at each offset of the map, and none elsewhere (R20, R39). -/
theorem ofOffset_offset (r : Csr) : Csr.ofOffset r.offset = some r := by cases r <;> rfl

theorem offset_of_findCsr {o : Nat} {rs : List Csr} {r : Csr} (h : findCsr o rs = some r) : r.offset = o := by
  induction rs with
  | nil => cases h
  | cons q rs ih =>
    simp only [findCsr] at h
    split at h
    · next hq => cases h; exact hq
    · exact ih h

theorem ofOffset_eq_some {o : Nat} {r : Csr} : Csr.ofOffset o = some r ↔ o = r.offset := by
  constructor
  · intro h; exact (offset_of_findCsr h).symm
  · rintro rfl; exact ofOffset_offset r

theorem ofOffset_reserved {o : Nat} (h : 0x054 ≤ o) : Csr.ofOffset o = none := by
  cases hr : Csr.ofOffset o with
  | none => rfl
  | some r =>
    have := ofOffset_eq_some.mp hr
    subst this
    cases r <;> simp [Csr.offset] at h

/-- A CMD write is one submission, of the command's plan or of code 7. -/
theorem writeCmd_eq_submit (s : State) (v : Word) :
    (∃ i, decode v = .ok i ∧ s.writeCmd v = .next (s.submit (commandPlan s i))) ∨
    (∃ e, decode v = .error e ∧ s.writeCmd v = .next (s.submit (.error .illegalCommand))) := by
  cases hd : decode v with
  | ok i => exact .inl ⟨i, rfl, by simp [State.writeCmd, hd, exec_eq_submit]⟩
  | error e => exact .inr ⟨e, rfl, by simp [State.writeCmd, hd]⟩

end Sys2Proof.Machine
end

