-- ==== Sys2Proof/Laws/Step.lean ====
section
/-! SUPPORT. Everything a host transaction and a step can do, said once, for the statements about every step. -/

namespace Sys2Proof.Machine

/-- A register write other than of CMD leaves STATUS but for its write-1-to-clear bits and ACCESS_ERR, and leaves N_USED, the
buffer RAM, the engine, the ports and `rst_n` alone. -/
theorem writeCsr_spec (s : State) (r : Csr) (v : Word) :
    (s.writeCsr r v).build = s.build ∧ (s.writeCsr r v).nUsedLo = s.nUsedLo ∧ (s.writeCsr r v).nUsedHi = s.nUsedHi ∧
    (s.writeCsr r v).ram = s.ram ∧ (s.writeCsr r v).engine = s.engine ∧ (s.writeCsr r v).port = s.port ∧
    (s.writeCsr r v).rstN = s.rstN ∧ (s.writeCsr r v).events = s.events ∧ (s.writeCsr r v).busRsp = s.busRsp ∧
    (s.writeCsr r v).draws = s.draws ∧
    ((s.writeCsr r v).status = s.status ∨ (r = .status ∧ (s.writeCsr r v).status = s.status.cleared v) ∨
      (s.status.busy = true ∧ (s.writeCsr r v).status = s.status.refused)) := by
  cases hb : s.status.busy <;> cases r <;> simp [State.writeCsr, State.writeOperand, hb]

/-- A register write other than of CMD, while busy, leaves every operand register alone. -/
theorem writeCsr_busy {s : State} (hb : s.status.busy = true) (r : Csr) (v : Word) :
    (s.writeCsr r v).algId = s.algId ∧ (s.writeCsr r v).ctrWidth = s.ctrWidth ∧ (s.writeCsr r v).nIterLo = s.nIterLo ∧
    (s.writeCsr r v).nIterHi = s.nIterHi ∧ (s.writeCsr r v).key = s.key ∧ (s.writeCsr r v).fixa = s.fixa ∧
    (s.writeCsr r v).fixb = s.fixb ∧ (s.writeCsr r v).fixc = s.fixc ∧ (s.writeCsr r v).out = s.out := by
  cases r <;> simp [State.writeCsr, State.writeOperand, hb]

/-- The plan of a CMD write: the command's checks, or code 7. -/
def wordPlan (s : State) (v : Word) : Except ErrCode Run :=
  match decode v with
  | .ok i => commandPlan s i
  | .error _ => .error .illegalCommand

theorem writeCmd_eq (s : State) (v : Word) : s.writeCmd v = .next (s.submit (wordPlan s v)) := by
  rcases writeCmd_eq_submit s v with ⟨i, hd, hw⟩ | ⟨e, hd, hw⟩ <;> rw [hw] <;> simp only [wordPlan, hd]

/-- What a host transaction does to the state. -/
inductive BusEffect (s : State) : Transaction → State → Prop where
  /-- It is not performed. -/
  | dropped (x : Transaction) : BusEffect s x s.noResponse
  /-- It is answered and changes nothing else. -/
  | answered (x : Transaction) (r : Resp) (d : Word) : BusEffect s x (s.respond r d)
  /-- A buffer access is refused. -/
  | refused (x : Transaction) (hb : s.status.busy = true) : BusEffect s x (s.respond .okay 0).refuseAccess
  /-- A register other than CMD is written. -/
  | register (a v : Word) (r : Csr) (hr : s.rstN = true) (ha : a.toNat = s.build.blockBase + r.offset) (hc : r ≠ .cmd) :
      BusEffect s (.write a .word v) ((s.respond .okay 0).writeCsr r v)
  /-- CMD is written. -/
  | command (a v : Word) (hr : s.rstN = true) (ha : a.toNat = s.build.blockBase + 0x008) :
      BusEffect s (.write a .word v) ((s.respond .okay 0).submit (wordPlan (s.respond .okay 0) v))
  /-- The buffer RAM is written. -/
  | buffer (a v : Word) (z : Size) (b : Nat) (hr : s.rstN = true) (hb : s.status.busy = false)
      (ha : a.toNat = s.build.blockBase + 0x10000 + b) (hi : b + z.bytes ≤ s.build.opmemBytes) :
      BusEffect s (.write a z v) ((s.respond .okay 0).memWrite b (littleEndianBytes z.bytes v.toNat))

/-- Every host transaction has one of these effects. -/
theorem transact_effect (s : State) (x : Transaction) : ∃ t, s.transact x = .next t ∧ BusEffect s x t := by
  cases hr : s.rstN with
  | false => exact ⟨_, transact_held hr x, .dropped x⟩
  | true =>
    cases x with
    | read a z =>
      cases ha : Build.offsetOf? s.build a with
      | none => exact ⟨_, transact_outside (t := .read a z) ha, .dropped _⟩
      | some o =>
        refine ⟨_, transact_read hr ha, ?_⟩
        unfold State.readOffset
        cases Build.target s.build o z with
        | csr p => exact .answered _ _ _
        | illegal => exact .answered _ _ _
        | buffer b =>
          show BusEffect s _ (s.readBuffer b z)
          unfold State.readBuffer
          cases hb : s.status.busy with
          | true => exact .refused _ hb
          | false => exact .answered _ _ _
    | write a z v =>
      cases ha : Build.offsetOf? s.build a with
      | none => exact ⟨_, transact_outside (t := .write a z v) ha, .dropped _⟩
      | some o =>
        rw [transact_write hr ha]
        obtain ⟨hao, ho⟩ := offsetOf?_eq_some ha
        have hs := target_spec s.build o z
        unfold State.writeOffset
        cases ht : Build.target s.build o z with
        | illegal => exact ⟨_, rfl, .answered _ _ _⟩
        | csr p =>
          rw [ht] at hs
          obtain ⟨rfl, -, rfl, -⟩ := hs
          show ∃ t, (s.respond .okay 0).writeCsrWindow p v = _ ∧ _
          unfold State.writeCsrWindow
          cases hc : Csr.ofOffset p with
          | none => exact ⟨_, rfl, .answered _ _ _⟩
          | some r =>
            have hp := ofOffset_eq_some.mp hc
            subst hp
            by_cases hcmd : r = .cmd
            · subst hcmd
              have h8 : Csr.cmd.offset = 0x008 := rfl
              rw [h8] at hao
              exact ⟨_, writeCmd_eq _ v, .command a v hr hao⟩
            · refine ⟨(s.respond .okay 0).writeCsr r v, ?_, .register a v r hr hao hcmd⟩
              cases r <;> first | rfl | exact absurd rfl hcmd
        | buffer b =>
          rw [ht] at hs
          obtain ⟨h1, hbo, h2, -⟩ := hs
          refine ⟨_, rfl, ?_⟩
          unfold State.writeBuffer
          cases hb : s.status.busy with
          | true => simpa [hb] using BusEffect.refused (.write a z v) hb
          | false => simpa [hb] using BusEffect.buffer a v z b hr hb (by omega) h2

/-- What a step does: nothing, or one event in the state it leaves. -/
inductive StepEffect (s : State) : State → Prop where
  | idle (h : s.events = []) : StepEffect s s
  | bus (x : Transaction) (es : List Event) (t : State) (h : s.events = .bus x :: es)
      (hx : BusEffect (s.withEvents es) x t) : StepEffect s t
  | engine (es : List Event) (h : s.events = .engine :: es) : StepEffect s (s.withEvents es).engineStep
  | reqReady (es : List Event) (h : s.events = .reqReady :: es) : StepEffect s (s.withEvents es).takeRequestBeat
  | prfAnswer (es : List Event) (h : s.events = .prfAnswer :: es) : StepEffect s (s.withEvents es).prfAnswer
  | rspValid (es : List Event) (h : s.events = .rspValid :: es) : StepEffect s (s.withEvents es).takeResponseBeat
  | resetLow (es : List Event) (h : s.events = .resetLow :: es) : StepEffect s (s.withEvents es).resetLow
  | resetHigh (es : List Event) (h : s.events = .resetHigh :: es) : StepEffect s (s.withEvents es).resetHigh

/-- Everything a step that answers a next state can do. -/
theorem step_effect {s t : State} (h : step s = .next t) : StepEffect s t := by
  cases he : s.events with
  | nil => rw [step_of_no_event he] at h; cases h; exact .idle he
  | cons e es =>
    rw [step_of_event he] at h
    cases e with
    | bus x =>
      obtain ⟨u, hu, hx⟩ := transact_effect (s.withEvents es) x
      rw [State.perform, hu] at h
      cases h
      exact .bus x es t he hx
    | engine => cases h; exact .engine es he
    | reqReady => cases h; exact .reqReady es he
    | prfAnswer => cases h; exact .prfAnswer es he
    | rspValid => cases h; exact .rspValid es he
    | resetLow => cases h; exact .resetLow es he
    | resetHigh => cases h; exact .resetHigh es he
    | foreignBeat b => cases h

/-- What the engine's step does (R130). -/
inductive EngineEffect (s : State) : State → Prop where
  | none : EngineEffect s s
  | issue (r : Run) (h : s.engine = .run r) (hw : r.waiting = false) (hi : r.i ≤ r.n) : EngineEffect s (s.issue r)
  | receive (r : Run) (h : s.engine = .run r) (hw : r.waiting = true) (hl : s.port.gotLast = true) :
      EngineEffect s (s.receive r)
  | complete (r : Run) (h : s.engine = .run r) (hw : r.waiting = false) (hi : r.n < r.i) : EngineEffect s (s.complete r)

theorem engineStep_effect (s : State) : EngineEffect s s.engineStep := by
  unfold State.engineStep
  cases he : s.engine with
  | idle => exact .none
  | run r =>
    show EngineEffect s (if _ then _ else _)
    cases hw : r.waiting with
    | true =>
      cases hl : s.port.gotLast with
      | true => exact .receive r he hw hl
      | false => exact .none
    | false =>
      show EngineEffect s (if r.i ≤ r.n then s.issue r else s.complete r)
      split
      · next hi => exact .issue r he hw hi
      · next hi => exact .complete r he hw (by omega)

/-- A PRF port event leaves everything but the port alone. -/
theorem portEvent_spec (s : State) (t : State)
    (h : t = s.takeRequestBeat ∨ t = s.prfAnswer ∨ t = s.takeResponseBeat) : t = { s with port := t.port } := by
  rcases h with rfl | rfl | rfl
  · unfold State.takeRequestBeat; split <;> rfl
  · unfold State.prfAnswer; split <;> rfl
  · unfold State.takeResponseBeat; split
    · rfl
    · split <;> rfl

end Sys2Proof.Machine
end

