-- ==== Sys2Proof/Laws/Access.lean ====
section
/-! SUPPORT. What a step with a read or a write of the CSR window or of the buffer window does, and runs of several steps. -/

namespace Sys2Proof.Machine

/-- A step whose oldest event is a host transaction performs it in the state that event has left. -/
theorem step_of_bus {s : State} {x : Transaction} {es : List Event} (h : s.events = .bus x :: es) :
    step s = s.popped.transact x := by
  have hp : s.withEvents es = s.popped := by simp [State.withEvents, State.popped, h]
  rw [step_of_event h, hp]
  rfl

theorem step_of_read {s : State} {a : Word} {z : Size} {es : List Event} {o : Nat} (hr : s.rstN = true)
    (ha : a.toNat = s.build.blockBase + o) (ho : o < 0x20000) (h : s.events = .bus (.read a z) :: es) :
    step s = .next (s.popped.readOffset o z) := by
  rw [step_of_bus h]
  exact transact_read (s := s.popped) hr (offsetOf?_of_eq ha ho)

theorem step_of_write {s : State} {a v : Word} {z : Size} {es : List Event} {o : Nat} (hr : s.rstN = true)
    (ha : a.toNat = s.build.blockBase + o) (ho : o < 0x20000) (h : s.events = .bus (.write a z v) :: es) :
    step s = s.popped.writeOffset o z v := by
  rw [step_of_bus h]
  exact transact_write (s := s.popped) hr (offsetOf?_of_eq ha ho)

/-- A legal write of the CSR window (R54). -/
theorem step_of_csr_write {s : State} {a v : Word} {es : List Event} {o : Nat} (hr : s.rstN = true)
    (ha : a.toNat = s.build.blockBase + o) (ho : o < 0x1000) (h4 : o % 4 = 0)
    (h : s.events = .bus (.write a .word v) :: es) : step s = (s.answered .okay 0).writeCsrWindow o v := by
  rw [step_of_write hr ha (Nat.lt_trans ho (by norm_num)) h, State.writeOffset, show s.popped.build = s.build from rfl,
    target_csr _ ho h4]
  rfl

/-- A legal read of the CSR window (R54). -/
theorem step_of_csr_read {s : State} {a : Word} {es : List Event} {o : Nat} (hr : s.rstN = true)
    (ha : a.toNat = s.build.blockBase + o) (ho : o < 0x1000) (h4 : o % 4 = 0)
    (h : s.events = .bus (.read a .word) :: es) : step s = .next (s.answered .okay (s.csrRead o)) := by
  have hp : s.popped.csrRead o = s.csrRead o := by
    unfold State.csrRead
    cases Csr.ofOffset o with
    | none => rfl
    | some r => cases r <;> rfl
  rw [step_of_read hr ha (Nat.lt_trans ho (by norm_num)) h, State.readOffset, show s.popped.build = s.build from rfl,
    target_csr _ ho h4]
  show Host.Outcome.next (s.popped.respond .okay (s.popped.csrRead o)) = _
  rw [hp]
  rfl

theorem Size.bytes_pos (z : Size) : 0 < z.bytes := by cases z <;> decide

/-- A legal buffer access by its buffer offset (R55). -/
theorem target_buffer_offset {s : State} {b : Nat} {z : Size} (hb : b + z.bytes ≤ s.build.opmemBytes)
    (hz : b % z.bytes = 0) : Build.target s.build (0x10000 + b) z = .buffer b := by
  rw [target_buffer s.build (by omega) (by omega) (by rw [Nat.add_sub_cancel_left]; exact hz), Nat.add_sub_cancel_left]

/-- The buffer window lies within the block (R51). -/
theorem buffer_offset_lt {s : State} {b : Nat} {z : Size} (hb : b + z.bytes ≤ s.build.opmemBytes) :
    0x10000 + b < 0x20000 := by
  have h1 := opmemBytes_bounds s.build
  have h2 := z.bytes_pos
  omega

/-- The number whose little-endian bytes fit is read back (R58). -/
theorem littleEndianValue_bytes (n v : Nat) (h : v < 256 ^ n) : littleEndianValue (littleEndianBytes n v) = v := by
  induction n generalizing v with
  | zero =>
    simp only [Nat.pow_zero, Nat.lt_one_iff] at h
    subst h
    rfl
  | succ n ih =>
    rw [littleEndianBytes, littleEndianValue, ih]
    · simp only [BitVec.toNat_ofNat]
      omega
    · rw [pow_succ] at h
      exact Nat.div_lt_of_lt_mul (by omega)

theorem run_succ {k : Nat} {s t : State} (h : step s = .next t) :
    Host.Core.run core (k + 1) s = Host.Core.run core k t := by
  have h' : core.step s = .next t := h
  simp only [Host.Core.run, h']

/-- A run of `k + l` steps is a run of `k` steps and then one of `l`. -/
theorem run_add {k : Nat} (l : Nat) {s t : State} (h : Host.Core.run core k s = .next t) :
    Host.Core.run core (k + l) s = Host.Core.run core l t := by
  induction k generalizing s with
  | zero => cases h; rw [Nat.zero_add]
  | succ k ih =>
    rw [show k + 1 + l = (k + l) + 1 by omega]
    simp only [Host.Core.run] at h ⊢
    cases hs : core.step s with
    | next u => rw [hs] at h; exact ih h
    | fault r => rw [hs] at h; cases h
    | refused r => rw [hs] at h; cases h

end Sys2Proof.Machine
end

