-- ==== Sys2Proof/Laws/Fairness.lean ====
section
/-! SUPPORT. What a fair run gives: which events are enabled, and that one that is not changes nothing. -/

namespace Sys2Proof.Machine

/-- What is enabled depends on the engine and the PRF port alone. -/
theorem enabled_congr {s t : State} (he : t.engine = s.engine) (hp : t.port = s.port) (e : Event) :
    t.enabled e = s.enabled e := by
  cases e <;> simp [State.enabled, State.engineMove, State.prfReqValid, State.prfRspReady, he, hp]

/-- The engine's event is its enabled step, or nothing (R130, log 9). -/
theorem engineStep_of_engineMove (s : State) :
    (s.engineMove = none ∧ s.engineStep = s) ∨
    ∃ r, s.engine = .run r ∧
      ((s.engineMove = some .issue ∧ r.waiting = false ∧ r.i ≤ r.n ∧ s.engineStep = s.issue r) ∨
       (s.engineMove = some .receive ∧ r.waiting = true ∧ s.port.gotLast = true ∧ s.engineStep = s.receive r) ∨
       (s.engineMove = some .complete ∧ r.waiting = false ∧ r.n < r.i ∧ s.engineStep = s.complete r)) := by
  cases he : s.engine with
  | idle => exact .inl ⟨by simp [State.engineMove, he], by simp [State.engineStep, he]⟩
  | run r =>
    cases hw : r.waiting with
    | true =>
      cases hl : s.port.gotLast with
      | true => exact .inr ⟨r, rfl, .inr (.inl (by simp [State.engineMove, State.engineStep, he, hw, hl]))⟩
      | false => exact .inl (by simp [State.engineMove, State.engineStep, he, hw, hl])
    | false =>
      by_cases hi : r.i ≤ r.n
      · exact .inr ⟨r, rfl, .inl (by simp [State.engineMove, State.engineStep, he, hw, hi])⟩
      · exact .inr ⟨r, rfl, .inr (.inr ⟨by simp [State.engineMove, he, hw, hi], hw, by omega,
          by simp [State.engineStep, he, hw, hi]⟩)⟩

/-- An event of an agent that is not enabled changes nothing (log 9); a foreign beat is refused instead. -/
theorem perform_of_not_enabled {s : State} {e : Event} (h : s.enabled e = false) :
    s.perform e = .next s ∨ ∃ b, e = .foreignBeat b := by
  cases e with
  | bus x => simp [State.enabled] at h
  | engine =>
    left
    rcases engineStep_of_engineMove s with ⟨_, he⟩ | ⟨r, _, h' | h' | h'⟩
    · simp [State.perform, he]
    all_goals simp [State.enabled, h'.1] at h
  | reqReady =>
    left
    have hr : s.port.req = [] := by simpa [State.enabled, State.prfReqValid] using h
    simp [State.perform, State.takeRequestBeat, hr]
  | prfAnswer =>
    left
    have hc : assembleRequest s.port.core = none := by simpa [State.enabled] using h
    simp [State.perform, State.prfAnswer, hc]
  | rspValid =>
    left
    cases hq : s.port.rsp with
    | nil => simp [State.perform, State.takeResponseBeat, hq]
    | cons b bs =>
      have hr : s.prfRspReady = false := by simpa [State.enabled, hq] using h
      simp only [State.perform, State.takeResponseBeat, hq, hr]; rfl
  | resetLow => simp [State.enabled] at h
  | resetHigh => simp [State.enabled] at h
  | foreignBeat b => exact .inr ⟨b, rfl⟩

/-- A step of a run performs that step's event alone. -/
theorem IsRun.step {σ : Nat → Event} {x : Nat → State} (h : IsRun σ x) (k : Nat) :
    ((x k).withEvents []).perform (σ k) = .next (x (k + 1)) := h k

end Sys2Proof.Machine
end

