-- ==== Sys2Proof/Laws/PerInstr.lean ====
section
/-! SUPPORT. The statements made of every command as syntax, one lemma per constructor (rules R80 to R84). -/

namespace Sys2Proof.Laws.Encoding

/-- A command is well-formed, its word is one that R82 does not call illegal, with RSVD = 0 and an OPCODE from 0x01 to 0x05,
and the decoder reads the command back from that word, as a CMD write delivers it and as the opcode table numbers it. -/
def Statement (i : Instr) : Prop :=
  i.wellFormed = true ∧ wellFormedWord (encode i) = true ∧ rsvdField (encode i) = 0 ∧
  1 ≤ (opcodeField (encode i)).toNat ∧ (opcodeField (encode i)).toNat ≤ 5 ∧
  lookupOpcode (opcodeField (encode i)) opcodeMap = some i ∧ decodeTableWord 32 (encode i).toNat = some i

theorem deriveBefore : Statement .deriveBefore := by unfold Statement; decide
theorem deriveAfter : Statement .deriveAfter := by unfold Statement; decide
theorem deriveMiddle : Statement .deriveMiddle := by unfold Statement; decide
theorem counterKdf : Statement .counterKdf := by unfold Statement; decide
theorem encodeCounter : Statement .encodeCounter := by unfold Statement; decide

end Sys2Proof.Laws.Encoding
end

