-- ==== Sys2Proof/Laws/Runs.lean ====
section
/-! SUPPORT. What an accepted command's Run record is, what its completion writes, and how the parts of the invariant move
with the fields they read. -/

namespace Sys2Proof.Machine

/-- A submission leaves the build, the buffer RAM, the PRF port and `rst_n` alone. -/
theorem submit_frame (s : State) (p : Except ErrCode Run) :
    (s.submit p).build = s.build ∧ (s.submit p).ram = s.ram ∧ (s.submit p).port = s.port ∧
    (s.submit p).rstN = s.rstN := by
  rcases submit_cases s p with ⟨_, he⟩ | ⟨_, c, _, he⟩ | ⟨_, r, _, he⟩ <;> rw [he] <;> simp

/-- The record of a command names the command. -/
theorem op_of_plan {i : Instr} {s : State} {r : Run} (h : commandPlan s i = .ok r) : r.op = i := by
  cases i
  all_goals first
    | (obtain ⟨_, _, _, rfl⟩ := passes_of_derivationPlan h; rfl)
    | (obtain ⟨_, _, _, rfl⟩ := passes_of_encodeCounterPlan h; rfl)

/-- The record of a derivation that has passed its checks is one the rules reach. -/
theorem derivationRun_ok {s : State} {h : Nat} {w : Width} {n : Nat} {inputs : List Region} {op : Instr} {pre post : Bytes}
    (hp : s.Passes h w n inputs) (hop : op ≠ .encodeCounter) : (derivationRun s op w n pre post).Ok s.build where
  outInside := hp.bounds _ (by simp)
  started := by simp [derivationRun]
  bounded := by simp [derivationRun]
  count := hp.count
  acc := by simp [derivationRun, Run.accumulated]
  encode := fun he => absurd he hop
  derive := fun _ => ⟨by simp [derivationRun, hp.registered], by
    simp only [derivationRun, digestBytes_of_registry hp.registered]
    exact hp.outLen⟩

/-- Every accepted command starts with a record the rules reach, before its first request. -/
theorem run_of_plan {s : State} {i : Instr} {r : Run} (h : commandPlan s i = .ok r) :
    r.Ok s.build ∧ r.waiting = false ∧ r.i = 1 ∧ r.acc = [] := by
  have key : ∀ {op it l pre post}, op ≠ .encodeCounter → derivationPlan s op it l pre post = .ok r →
      r.Ok s.build ∧ r.waiting = false ∧ r.i = 1 ∧ r.acc = [] := by
    intro op it l pre post hop h
    obtain ⟨_, _, hp, rfl⟩ := passes_of_derivationPlan h
    exact ⟨derivationRun_ok hp hop, rfl, rfl, rfl⟩
  cases i
  · exact key (by decide) h
  · exact key (by decide) h
  · exact key (by decide) h
  · exact key (by decide) h
  · obtain ⟨w, _, hb, rfl⟩ := passes_of_encodeCounterPlan h
    have hl : (BitVec.ofNat 32 w.bytes).toNat = w.bytes := by cases w <;> rfl
    exact ⟨⟨by simp only [hl]; exact hb, by simp, by simp, by simp, by simp [Run.accumulated], fun _ => ⟨rfl, by simp [hl]⟩,
      fun hop => absurd rfl hop⟩, rfl, rfl, rfl⟩

/-- What Complete writes is the output the rules give, of out_len bytes (R133, R134). -/
theorem result_eq_output {b : Config.Build} {r : Run} (h : r.Ok b) (hi : r.n < r.i) :
    r.result = r.output b ∧ r.result.length = r.outLen.toNat := by
  have hlast : r.i - 1 = r.n := by have := h.bounded; omega
  by_cases hop : r.op = .encodeCounter
  · simp [Run.result, Run.output, hop, (h.encode hop).2]
  · have ha := h.acc
    rw [hlast] at ha
    have hd := (h.derive hop).2
    simp only [Run.result, Run.output, hop, ha, if_false]
    simp [hd]

/-- A record with iterations left is a derivation's. -/
theorem op_of_iterations_left {b : Config.Build} {r : Run} (h : r.Ok b) (hi : r.i ≤ r.n) : r.op ≠ .encodeCounter := by
  intro hop
  have h1 := (h.encode hop).1
  have h2 := h.started
  omega

theorem digestBytes_pos {b : Config.Build} {r : Run} (h : r.Ok b) (hop : r.op ≠ .encodeCounter) :
    0 < digestBytes b r.alg := by
  cases hr : registry b r.alg with
  | none => exact absurd hr (h.derive hop).1
  | some _ => obtain ⟨d, hd, _, h2⟩ := registry_spec hr; omega

theorem portOk_waiting {b : Config.Build} {p : PrfPort} {r : Run} (hw : r.waiting = true) :
    Engine.PortOk b p (.run r) ↔ r.i ≤ r.n ∧ (r.Sending p ∨ r.Receiving b p) := by simp [Engine.PortOk, hw]

theorem portOk_between {b : Config.Build} {p : PrfPort} {r : Run} (hw : r.waiting = false) :
    Engine.PortOk b p (.run r) ↔ p = PrfPort.quiet := by simp [Engine.PortOk, hw]

/-- The flags' part of the invariant reads STATUS and whether the engine is Idle. -/
theorem State.StatusOk.congr {s t : State} (h : s.StatusOk) (h1 : t.status = s.status)
    (h2 : t.engine = .idle ↔ s.engine = .idle) : t.StatusOk := by
  obtain ⟨a, b, c, d, e⟩ := h
  constructor <;> rw [h1]
  · rw [a]
    exact not_congr h2.symm
  all_goals assumption

/-- A byte string written inside OPMEM_BYTES keeps the buffer RAM canonical and inside it. -/
theorem State.MemoryOk.store {s t : State} (h : s.MemoryOk) {off : Nat} {v : Bytes} (hi : off + v.length ≤ s.build.opmemBytes)
    (hb : t.build = s.build) (hm : t.ram = Memory.storeBytes s.ram off v) : t.MemoryOk := by
  refine ⟨by rw [hm]; exact Memory.wf_storeBytes h.wf _ _, fun c hc => ?_⟩
  rw [hb]
  rw [hm] at hc
  rcases Memory.mem_storeBytes hc with hc | hc
  · exact h.inside c hc
  · omega

/-- A change of other fields keeps the invariant. -/
theorem State.Inv.congr {s t : State} (h : s.Inv) (hst : t.StatusOk) (hb : t.build = s.build) (hm : t.ram = s.ram)
    (he : t.engine = s.engine) (hp : t.port = s.port) (hr : t.rstN = false → s.rstN = false ∧ t.status = s.status) :
    t.Inv := by
  refine ⟨hst, ⟨by rw [hm]; exact h.memory.wf, by rw [hm, hb]; exact h.memory.inside⟩, by rw [he, hb]; exact h.run,
    by rw [he, hp, hb]; exact h.port, fun h0 => ?_⟩
  obtain ⟨h1, h2⟩ := hr h0
  rw [he, h2]
  exact h.held h1

end Sys2Proof.Machine
end

