-- ==== Sys2Proof/Tests/Slice0.lean ====
section
/-! SUPPORT. Tests whose expected values come from spec/ (the file 95_test_vectors.md and the encodings of R81), and for each
statement that has hypotheses a state that meets them all. -/

namespace Sys2Proof.Tests.Slice0

open Sys2Proof.Machine

/- ## Helpers -/

/-- What a function reads from the next state, if there is one. -/
def after {α : Type} (o : Host.Outcome State Fault Refusal) (f : State → α) : Option α :=
  match o with
  | .next s => some (f s)
  | .fault _ => none
  | .refused _ => none

/-- The common start state of 95_test_vectors.md with these operands. -/
def start (alg w : Byte) (n : Word) (key fixa fixb out : Region) : State :=
  { State.reset with algId := alg, ctrWidth := w, nIterLo := n, key := key, fixa := fixa, fixb := fixb, out := out }

/-- STATUS after a command, as a host reads it. -/
def statusAfter (i : Instr) (s : State) : Option Word := after (exec i s) fun t => t.status.word

/-- The message of iteration `k` of the command just accepted. -/
def messageAfter (i : Instr) (s : State) (k : Nat) : Option Bytes :=
  match after (exec i s) (·.engine) with
  | some (.run r) => some (r.message k)
  | some .idle => none
  | none => none

/-- What a step with one host transaction answers on the bus. -/
def answerTo (s : State) (x : Transaction) : Option (Option BusRsp) := after (step { s with events := [.bus x] }) (·.busRsp)

/- ## Well-formedness: what it refuses -/

theorem test_wellFormed_byteDatum : (Transaction.write 0x10000 .byte 0x100).wellFormed = false := by decide
theorem test_wellFormed_halfDatum : (Transaction.write 0x10000 .half 0x10000).wellFormed = false := by decide
theorem test_wellFormed_opcode0 : wellFormedWord 0x00000000 = false := by decide
theorem test_wellFormed_opcode6 : wellFormedWord 0x00000006 = false := by decide
theorem test_wellFormed_reserved : wellFormedWord 0x00000105 = false := by decide
theorem test_wellFormed_legal : wellFormedWord 0x00000005 = true := by decide

/- ## Decoding: words written from R81, RSVD in bits 31:8 and OPCODE in bits 7:0 -/

theorem test_decode_deriveBefore : decode 0b00000000000000000000000000000001 = .ok .deriveBefore := rfl
theorem test_decode_deriveAfter : decode 0b00000000000000000000000000000010 = .ok .deriveAfter := rfl
theorem test_decode_deriveMiddle : decode 0b00000000000000000000000000000011 = .ok .deriveMiddle := rfl
theorem test_decode_counterKdf : decode 0b00000000000000000000000000000100 = .ok .counterKdf := rfl
theorem test_decode_encodeCounter : decode 0b00000000000000000000000000000101 = .ok .encodeCounter := rfl
theorem test_decode_illegal : decode 0x000000FF = .error .unassignedOpcode ∧ decode 0x80000001 = .error .reservedBitsSet :=
  ⟨rfl, rfl⟩

/- ## Commands -/

/-- V-E4: the first message. -/
theorem test_deriveBefore_message : messageAfter .deriveBefore
    { start 1 32 3 ⟨0, 0⟩ ⟨0, 1⟩ ⟨0, 0⟩ ⟨64, 96⟩ with ram := [(0, 0xFE)] } 1 = some [0x00, 0x00, 0x00, 0x01, 0xFE] := by
  decide
/-- C-20: bounds are reported before overlap. -/
theorem test_deriveBefore_priority :
    statusAfter .deriveBefore (start 1 8 1 ⟨0, 32⟩ ⟨20000, 1⟩ ⟨0, 0⟩ ⟨0, 32⟩) = some 0x504 := by decide

/-- V-E2: the second message. -/
theorem test_deriveAfter_message : messageAfter .deriveAfter
    { start 1 16 2 ⟨0, 0⟩ ⟨32, 4⟩ ⟨0, 0⟩ ⟨64, 40⟩ with ram := [(32, 0xA1), (33, 0xA2), (34, 0xA3), (35, 0xA4)] } 2
    = some [0xA1, 0xA2, 0xA3, 0xA4, 0x00, 0x02] := by decide
/-- W3: a counter width of 23. -/
theorem test_deriveAfter_width : statusAfter .deriveAfter (start 1 23 1 ⟨0, 0⟩ ⟨0, 0⟩ ⟨0, 0⟩ ⟨0, 0⟩) = some 0x204 := by
  decide

/-- V-E3: the message. -/
theorem test_deriveMiddle_message : messageAfter .deriveMiddle
    { start 2 24 1 ⟨0, 0⟩ ⟨32, 2⟩ ⟨36, 1⟩ ⟨64, 20⟩ with ram := [(32, 0x11), (33, 0x22), (36, 0x33)] } 1
    = some [0x11, 0x22, 0x00, 0x00, 0x01, 0x33] := by decide
/-- C-18: DERIVE_MIDDLE checks FIXB for overlap. -/
theorem test_deriveMiddle_overlap :
    statusAfter .deriveMiddle (start 1 8 1 ⟨0, 32⟩ ⟨0, 0⟩ ⟨40, 4⟩ ⟨32, 32⟩) = some 0x604 := by decide

/-- Section 5: SHA-384, OUT_LEN 12240 gives n = 255 and the wrapped length field 7E 80. -/
theorem test_counterKdf_wrap : messageAfter .counterKdf (start 2 8 0 ⟨0, 0⟩ ⟨0, 0⟩ ⟨0, 0⟩ ⟨64, 12240⟩) 255
    = some [0xFF, 0x00, 0x7E, 0x80] := by decide
/-- Section 5: SHA-256, OUT_LEN 8161 gives n = 256, too high for width 8. -/
theorem test_counterKdf_boundary :
    statusAfter .counterKdf (start 1 8 0 ⟨0, 0⟩ ⟨0, 0⟩ ⟨0, 0⟩ ⟨64, 8161⟩) = some 0x304 := by decide

/-- Section 2: w = 24, N = 0x1000001 wraps to 00 00 01. -/
theorem test_encodeCounter_wraps : after (exec .encodeCounter (start 0 24 0x1000001 ⟨0, 0⟩ ⟨0, 0⟩ ⟨0, 0⟩ ⟨0x100, 9⟩))
    (fun t => match t.engine with | .run r => r.pre | .idle => []) = some [0x00, 0x00, 0x01] := by decide
/-- Section 2: w = 32 at OUT_OFF 16381 does not fit. -/
theorem test_encodeCounter_bounds :
    statusAfter .encodeCounter (start 0 32 1 ⟨0, 0⟩ ⟨0, 0⟩ ⟨0, 0⟩ ⟨16381, 0⟩) = some 0x504 := by decide

/- ## Host transactions -/

/-- B-18. -/
theorem test_read_half : answerTo { State.reset with ram := [(0, 1), (1, 2), (2, 3), (3, 4)] } (.read 0x10002 .half)
    = some (some { resp := .okay, data := 0x0403 }) := by decide
/-- B-22. -/
theorem test_read_pastEnd : answerTo State.reset (.read 0x14000 .byte) = some (some { resp := .error, data := 0 }) := by
  decide
/-- S-10: an illegal word raises code 7 and the enabled interrupt. -/
theorem test_illegal_irq : after (step { State.reset with
      irqEn := { doneIe := false, errIe := true, accessIe := false }, events := [.bus (.write 8 .word 6)] })
    (fun t => (t.status.word, t.irq)) = some (0x704, true) := by decide
/-- S-6: an acceptance clears ERR and keeps ACCESS_ERR. -/
theorem test_accept_keeps_accessErr : after (exec .encodeCounter { State.reset with
      status := { busy := false, done := false, err := true, accessErr := true, errCode := 2 } })
    (·.status.word) = some 0x9 := by decide

/- ## Witnesses: for each statement that has hypotheses, a state that meets them all -/

/-- Idle, and a derivation with `n = 1`, KEY (0, 32) and OUT (16352, 32), which ends at OPMEM_BYTES. -/
def idle : State := start 1 8 1 ⟨0, 32⟩ ⟨32, 4⟩ ⟨36, 0⟩ ⟨16352, 32⟩

/-- The record of an ENCODE_COUNTER of 1 in progress. -/
def encodeRun : Run :=
  { op := .encodeCounter, alg := 0, key := [], pre := [0x01], post := [], w := .w8, n := 0, outOff := 0x100, outLen := 1,
    i := 1, waiting := false, acc := [] }

/-- The record of a DERIVE_BEFORE in progress before its one request. -/
def deriveRun : Run :=
  { op := .deriveBefore, alg := 1, key := [], pre := [], post := [], w := .w8, n := 1, outOff := 0, outLen := 32, i := 1,
    waiting := false, acc := [] }

/-- A state busy with a command, the byte at 0x100 written. -/
def busy (r : Run) : State :=
  { State.reset with
    status := { busy := true, done := false, err := false, accessErr := false, errCode := 0 }
    engine := .run r, ram := [(0x100, 0x00)] }

/-- A state with one host write as its oldest event. -/
def withWrite (s : State) (a : Word) (z : Size) (v : Word) : State := { s with events := [.bus (.write a z v)] }

/-- A state with one host read as its oldest event. -/
def withRead (s : State) (a : Word) (z : Size) : State := { s with events := [.bus (.read a z)] }

theorem witness_IllegalWordIsRejectedOrRefused :
    (withWrite State.reset 8 .word 0x101).rstN = true ∧ (withWrite (busy encodeRun) 8 .word 0x101).rstN = true ∧
    (8 : Word).toNat = State.reset.build.blockBase + 0x008 ∧
    (withWrite State.reset 8 .word 0x101).events = [.bus (.write 8 .word 0x101)] ∧
    State.reset.status.busy = false ∧ (busy encodeRun).status.busy = true ∧
    (0x00000101 : Word).extractLsb' 8 24 ≠ 0#24 ∧ ((0x00000000 : Word).extractLsb' 0 8).toNat = 0 ∧
    6 ≤ ((0x00000006 : Word).extractLsb' 0 8).toNat := by decide

theorem witness_StepRunsTheDecodedCommand :
    (withWrite State.reset 8 .word 5).rstN = true ∧
    (withWrite State.reset 8 .word 5).events = [.bus (.write 8 .word 5)] ∧
    (8 : Word).toNat = (withWrite State.reset 8 .word 5).build.blockBase + 0x008 ∧ decode 5 = .ok .encodeCounter :=
  ⟨rfl, rfl, rfl, rfl⟩

theorem idle_passes (n : Nat) (hn : 1 ≤ n) (hc : n ≤ 255) (l : List Region) (hl : l ⊆ [⟨0, 32⟩, ⟨32, 4⟩, ⟨36, 0⟩, ⟨0, 0⟩]) :
    idle.Passes 256 .w8 n l where
  registered := rfl
  width := rfl
  count := hc
  outLen := show 32 ≤ n * 32 by omega
  bounds := fun p hp => by
    rcases List.mem_cons.mp hp with rfl | hp
    · decide
    · exact (by decide : ∀ p ∈ ([⟨0, 32⟩, ⟨32, 4⟩, ⟨36, 0⟩, ⟨0, 0⟩] : List Region),
        p.off.toNat + p.len.toNat ≤ idle.build.opmemBytes) p (hl hp)
  disjoint := fun p hp => (by decide : ∀ p ∈ ([⟨0, 32⟩, ⟨32, 4⟩, ⟨36, 0⟩, ⟨0, 0⟩] : List Region),
    ¬(0 < idle.out.len.toNat ∧ 0 < p.len.toNat ∧ idle.out.off.toNat < p.off.toNat + p.len.toNat
      ∧ p.off.toNat < idle.out.off.toNat + idle.out.len.toNat)) p (hl hp)

theorem witness_DeriveBeforeIsAccepted :
    idle.status.busy = false ∧ idle.Passes 256 .w8 idle.nIter [idle.key, idle.fixa] :=
  ⟨rfl, idle_passes _ (by decide) (by decide) _ (by decide)⟩

theorem witness_DeriveAfterIsAccepted :
    idle.status.busy = false ∧ idle.Passes 256 .w8 idle.nIter [idle.key, idle.fixa] :=
  ⟨rfl, idle_passes _ (by decide) (by decide) _ (by decide)⟩

theorem witness_DeriveMiddleIsAccepted :
    idle.status.busy = false ∧ idle.Passes 256 .w8 idle.nIter [idle.key, idle.fixa, idle.fixb] :=
  ⟨rfl, idle_passes _ (by decide) (by decide) _ (by decide)⟩

theorem witness_CounterKdfIsAccepted :
    idle.status.busy = false ∧ registry idle.build idle.algId = some 256 ∧ idle.ctrWidth.toNat = Width.w8.bits ∧
    (8 * idle.out.len.toNat + 256 - 1) / 256 ≤ 2 ^ Width.w8.bits - 1 ∧
    (∀ p ∈ [idle.key, idle.fixa, idle.fixb, idle.fixc, idle.out], p.off.toNat + p.len.toNat ≤ idle.build.opmemBytes) ∧
    (∀ p ∈ [idle.key, idle.fixa, idle.fixb, idle.fixc], ¬(0 < idle.out.len.toNat ∧ 0 < p.len.toNat ∧
      idle.out.off.toNat < p.off.toNat + p.len.toNat ∧ p.off.toNat < idle.out.off.toNat + idle.out.len.toNat)) := by
  decide

/-- w = 32 at OUT_OFF 16380, the last place it fits. -/
theorem witness_EncodeCounterRuns :
    let s := start 0 32 1 ⟨0, 0⟩ ⟨0, 0⟩ ⟨0, 0⟩ ⟨16380, 0⟩
    s.status.busy = false ∧ s.ctrWidth.toNat = Width.w32.bits ∧ s.out.off.toNat + Width.w32.bytes ≤ s.build.opmemBytes := by
  decide

/-- One state for each code, each at the boundary of its check (C-1, W3, C-4, C-9, C-11, C-14 and their like). -/
theorem witness_FirstFailingCheckIsReported_derive :
    (start 0 8 1 ⟨0, 0⟩ ⟨0, 0⟩ ⟨0, 0⟩ ⟨0, 0⟩).FirstFailure (fun _ => 1) [⟨0, 0⟩, ⟨0, 0⟩] 1 ∧
    (start 1 23 1 ⟨0, 0⟩ ⟨0, 0⟩ ⟨0, 0⟩ ⟨0, 0⟩).FirstFailure (fun _ => 1) [⟨0, 0⟩, ⟨0, 0⟩] 2 ∧
    (start 1 8 256 ⟨0, 0⟩ ⟨0, 0⟩ ⟨0, 0⟩ ⟨0, 99999⟩).FirstFailure (fun _ => 256) [⟨0, 0⟩, ⟨0, 0⟩] 3 ∧
    (start 1 8 1 ⟨0, 0⟩ ⟨0, 0⟩ ⟨0, 0⟩ ⟨0, 33⟩).FirstFailure (fun _ => 1) [⟨0, 0⟩, ⟨0, 0⟩] 4 ∧
    (start 1 8 1 ⟨0, 0⟩ ⟨16385, 0⟩ ⟨0, 0⟩ ⟨0, 32⟩).FirstFailure (fun _ => 1) [⟨0, 0⟩, ⟨16385, 0⟩] 5 ∧
    (start 1 8 1 ⟨0, 32⟩ ⟨0, 0⟩ ⟨0, 0⟩ ⟨31, 32⟩).FirstFailure (fun _ => 1) [⟨0, 32⟩, ⟨0, 0⟩] 6 :=
  ⟨.inl (by decide), .inr ⟨256, rfl, .inl (by decide)⟩, .inr ⟨256, rfl, .inr ⟨by decide, .inl (by decide)⟩⟩,
    .inr ⟨256, rfl, .inr ⟨by decide, .inr ⟨by decide, .inl (by decide)⟩⟩⟩,
    .inr ⟨256, rfl, .inr ⟨by decide, .inr ⟨by decide, .inr ⟨by decide, .inl (by decide)⟩⟩⟩⟩,
    .inr ⟨256, rfl, .inr ⟨by decide, .inr ⟨by decide, .inr ⟨by decide, .inr (by decide)⟩⟩⟩⟩⟩

/-- COUNTER_KDF with OUT_LEN 8161 at width 8 (code 3); ENCODE_COUNTER with width 23, and with w = 8 at OUT_OFF 16384. -/
theorem witness_FirstFailingCheckIsReported_other :
    (start 1 8 0 ⟨0, 0⟩ ⟨0, 0⟩ ⟨0, 0⟩ ⟨64, 8161⟩).FirstFailure (fun h => (8 * 8161 + h - 1) / h)
      [⟨0, 0⟩, ⟨0, 0⟩, ⟨0, 0⟩, ⟨0, 0⟩] 3 ∧
    (start 0 23 0 ⟨0, 0⟩ ⟨0, 0⟩ ⟨0, 0⟩ ⟨0, 0⟩).ctrWidth.toNat ∉ [8, 16, 24, 32] ∧
    (start 0 8 0 ⟨0, 0⟩ ⟨0, 0⟩ ⟨0, 0⟩ ⟨16384, 0⟩).build.opmemBytes
      < (start 0 8 0 ⟨0, 0⟩ ⟨0, 0⟩ ⟨0, 0⟩ ⟨16384, 0⟩).out.off.toNat + Width.w8.bytes :=
  ⟨.inr ⟨256, rfl, .inr ⟨by decide, .inl (by decide)⟩⟩, by decide, by decide⟩

theorem witness_CounterKdfNeverCode4 : idle.status.busy = false ∧ registry idle.build idle.algId = some 256 := by decide

/-- w = 32: `n = 2^32 − 1`, and `n = 2^32` with N_ITER_HI = 1 (W1). -/
theorem witness_CounterBoundary :
    let s := start 1 32 0xFFFFFFFF ⟨0, 0⟩ ⟨0, 0⟩ ⟨0, 0⟩ ⟨0, 0⟩
    let t := { s with nIterLo := 0, nIterHi := 1 }
    s.nIter = 2 ^ Width.w32.bits - 1 ∧ t.nIter = 2 ^ Width.w32.bits ∧
    t.nIterHi = 1 ∧ t.nIterLo = 0 ∧ isDerive .deriveMiddle = true ∧
    ∀ u ∈ [s, t], u.status.busy = false ∧ registry u.build u.algId = some 256 ∧ u.ctrWidth.toNat = Width.w32.bits ∧
      u.out.len.toNat ≤ u.nIter * (256 / 8) ∧
      (∀ p ∈ u.out :: u.inputRegions .deriveMiddle, p.off.toNat + p.len.toNat ≤ u.build.opmemBytes) ∧
      (∀ p ∈ u.inputRegions .deriveMiddle, ¬(0 < u.out.len.toNat ∧ 0 < p.len.toNat ∧
        u.out.off.toNat < p.off.toNat + p.len.toNat ∧ p.off.toNat < u.out.off.toNat + u.out.len.toNat)) := by
  decide

/-- C-8 and C-9: OUT_LEN 0 and 1. -/
theorem witness_ZeroIterations :
    ∀ u ∈ [start 1 8 0 ⟨0, 0⟩ ⟨0, 0⟩ ⟨0, 0⟩ ⟨0, 0⟩, start 1 8 0 ⟨0, 0⟩ ⟨0, 0⟩ ⟨0, 0⟩ ⟨0, 1⟩],
      u.status.busy = false ∧ isDerive .deriveBefore = true ∧ registry u.build u.algId = some 256 ∧
      u.ctrWidth.toNat = Width.w8.bits ∧ u.nIter = 0 ∧
      (∀ p ∈ u.out :: u.inputRegions .deriveBefore, p.off.toNat + p.len.toNat ≤ u.build.opmemBytes) ∧
      (u.out.len.toNat = 0 ∨ 0 < u.out.len.toNat) := by
  decide

theorem witness_CommandFrame : (busy deriveRun).status.busy = true ∧ idle.status.busy = false := by decide

/-- Two states with the same registers and bytes, and other events, answers and PRF port. -/
theorem witness_OutcomeDependsOnRegistersAndRam :
    let t := { idle with events := [.engine], busRsp := none, draws := 5, port := { PrfPort.quiet with gotLast := true } }
    idle.status.busy = false ∧ t.status.busy = false ∧ t.build = idle.build ∧ t.algId = idle.algId ∧
    t.ctrWidth = idle.ctrWidth ∧ t.nIterLo = idle.nIterLo ∧ t.nIterHi = idle.nIterHi ∧ t.key = idle.key ∧
    t.fixa = idle.fixa ∧ t.fixb = idle.fixb ∧ t.fixc = idle.fixc ∧ t.out = idle.out ∧
    ∀ a, a < idle.build.opmemBytes → t.ramByte a = idle.ramByte a :=
  ⟨rfl, rfl, rfl, rfl, rfl, rfl, rfl, rfl, rfl, rfl, rfl, rfl, fun _ _ => rfl⟩

theorem witness_CounterFieldIsExactInRange : 1 ≤ 1 ∧ 1 ≤ 2 ^ Width.w32.bits - 1 ∧ 1 ≤ 4294967295 ∧
    4294967295 ≤ 2 ^ Width.w32.bits - 1 := by decide

theorem witness_AssemblerCountIsCeiling : registry Config.defaultBuild 2 = some 384 := by decide

/-- COUNTER_KDF with every region empty but OUT, and DERIVE_BEFORE whose FIXA holds F = 00 01 00. -/
theorem witness_CounterKdfIsDeriveBefore :
    let s := start 1 8 0 ⟨0, 0⟩ ⟨0, 0⟩ ⟨0, 0⟩ ⟨64, 32⟩
    let t := { start 1 8 1 ⟨0, 0⟩ ⟨0, 3⟩ ⟨0, 0⟩ ⟨64, 32⟩ with ram := [(0, 0), (1, 1), (2, 0)] }
    s.status.busy = false ∧ t.status.busy = false ∧
    s.Passes 256 .w8 ((8 * s.out.len.toNat + 256 - 1) / 256) [s.key, s.fixa, s.fixb, s.fixc] ∧
    t.Passes 256 .w8 t.nIter [t.key, t.fixa] ∧
    t.build = s.build ∧ t.algId = s.algId ∧ t.regionBytes t.key = s.regionBytes s.key ∧ t.out.len = s.out.len ∧
    t.regionBytes t.fixa = s.fixedInput ∧ t.nIter = (8 * s.out.len.toNat + 256 - 1) / 256 :=
  ⟨rfl, rfl, ⟨rfl, rfl, by decide, by decide, by decide, by decide⟩, ⟨rfl, rfl, by decide, by decide, by decide, by decide⟩,
    rfl, rfl, rfl, rfl, by decide, by decide⟩

theorem witness_RegistryAndPrfLengths :
    registry { Config.defaultBuild with registry := [{ alg := 3, digestBytes := 1 }] } 3 = some 8 := by decide

theorem witness_RequestSurvivesThePort : (PrfRequest.mk 1 [] [0x01]).msg ≠ [] ∧
    0 < (requestBeats (PrfRequest.mk 1 [] [0x01])).length := by decide

theorem witness_ContractBreachIsRefused :
    ({ State.reset with events := [.foreignBeat { byte := 0, last := true }] } : State).events
      = [.foreignBeat { byte := 0, last := true }] := rfl

/-- For each event of the PRF port a state in which it moves something and one in which it does not. -/
theorem witness_PrfPortEvents :
    let w := busy { deriveRun with waiting := true }
    let q := PrfRequest.mk 1 [] [0x01]
    State.reset.prfReqValid = false ∧ ({ w with port := { PrfPort.quiet with req := requestBeats q } } : State).prfReqValid = true ∧
    assembleRequest State.reset.port.core = none ∧
    assembleRequest ({ w with port := { PrfPort.quiet with core := requestBeats q } } : State).port.core = some q ∧
    State.reset.port.rsp = [] ∧ State.reset.prfRspReady = false ∧
    ({ w with port := { PrfPort.quiet with rsp := responseBeats [0x5A] } } : State).port.rsp = [⟨0x5A, true⟩] ∧
    ({ w with port := { PrfPort.quiet with rsp := responseBeats [0x5A] } } : State).prfRspReady = true := by decide

/-- Idle; about to issue; waiting with the response in; waiting without it. -/
theorem witness_EngineStepTable :
    ({ State.reset with events := [.engine] } : State).engine = .idle ∧
    (deriveRun.waiting = false ∧ deriveRun.i ≤ deriveRun.n) ∧
    ({ busy { deriveRun with waiting := true } with port := { PrfPort.quiet with gotLast := true } } : State).port.gotLast
      = true ∧
    (busy { deriveRun with waiting := true }).port.gotLast = false := by decide

/-- The encoded counter, and an accumulator of one digest cut to 32 bytes. -/
theorem witness_CompleteWritesTheResult :
    (encodeRun.waiting = false ∧ encodeRun.n < encodeRun.i ∧ encodeRun.op = .encodeCounter) ∧
    let r := { deriveRun with i := 2, acc := List.replicate 48 0x5A }
    r.waiting = false ∧ r.n < r.i ∧ r.op ≠ .encodeCounter ∧ (List.replicate 32 0x5A : Bytes) = r.acc.take r.outLen.toNat := by
  decide

theorem witness_OutputByteK : deriveRun.op ≠ .encodeCounter ∧ registry Config.defaultBuild deriveRun.alg ≠ none ∧
    deriveRun.outLen.toNat ≤ deriveRun.n * digestBytes Config.defaultBuild deriveRun.alg := by decide

/-- A state busy with ENCODE_COUNTER meets the invariant. -/
theorem busy_inv : ({ busy encodeRun with events := [.engine] } : State).Inv where
  status := ⟨by decide, by decide, by decide, by decide, by decide⟩
  memory := ⟨by decide, by decide⟩
  run := fun r hr => by
    cases hr
    exact ⟨by decide, by decide, by decide, by decide, rfl, fun _ => by decide, fun h => absurd rfl h⟩
  port := rfl
  held := fun h => nomatch h

theorem witness_DoneMeansTheRightOutput :
    let s := { busy encodeRun with events := [.engine] }
    s.Inv ∧ s.status.done = false ∧ step s = .next (s.popped.complete encodeRun) ∧
    (s.popped.complete encodeRun).status.done = true := ⟨busy_inv, rfl, rfl, rfl⟩

theorem reset_inv : State.reset.Inv where
  status := ⟨by decide, by decide, by decide, by decide, by decide⟩
  memory := ⟨by decide, by decide⟩
  run := fun _ h => nomatch h
  port := rfl
  held := fun h => nomatch h

theorem witness_FairScheduleCompletes : State.reset.Inv ∧ State.reset.rstN = true ∧ State.reset.status.busy = false ∧
    ∃ t r, exec .encodeCounter State.reset = .next t ∧ t.engine = .run r := ⟨reset_inv, rfl, rfl, _, _, rfl, rfl⟩

/-- The agents' events in turn, for ever. -/
def turns (k : Nat) : Event :=
  match k % 4 with
  | 0 => .engine
  | 1 => .reqReady
  | 2 => .prfAnswer
  | _ => .rspValid

/-- The run of those events from `s`. -/
def follow (s : State) : Nat → State
  | 0 => s
  | k + 1 =>
    match step ((follow s k).withEvents [turns k]) with
    | .next t => t
    | .fault _ => follow s k
    | .refused _ => follow s k

/-- Each agent has its turn again and again, so the run is fair. -/
theorem follow_fair (s : State) : FairRun turns (follow s) where
  run := fun k => by
    have h : ∃ t, step ((follow s k).withEvents [turns k]) = .next t := by
      unfold turns
      split <;> exact ⟨_, rfl⟩
    obtain ⟨t, ht⟩ := h
    rw [follow, ht]
  engine := fun k _ => ⟨4 * k, by omega, by simp [turns]⟩
  takes := fun k _ => ⟨4 * k + 1, by omega, by simp [turns]⟩
  answers := fun k _ => ⟨4 * k + 2, by omega, by simp [turns]⟩
  delivers := fun k _ => ⟨4 * k + 3, by omega, by simp [turns]⟩

theorem idle_inv : idle.Inv where
  status := ⟨by decide, by decide, by decide, by decide, by decide⟩
  memory := ⟨by decide, by decide⟩
  run := fun _ h => nomatch h
  port := rfl
  held := fun h => nomatch h

/-- A DERIVE_BEFORE of one iteration, accepted, and the run in which each agent has its turn. -/
theorem witness_FairRunCompletes : idle.Inv ∧ idle.rstN = true ∧ idle.status.busy = false ∧ (∀ k, turns k ≠ .resetLow) ∧
    ∃ t r, exec .deriveBefore idle = .next (follow t 0) ∧ (follow t 0).engine = .run r ∧ FairRun turns (follow t) :=
  ⟨idle_inv, rfl, rfl, fun k => by unfold turns; split <;> simp, _, _, rfl, rfl, follow_fair _⟩

theorem witness_UnfairRunStaysBusy :
    (busy deriveRun).status.busy = true ∧ (busy deriveRun).engine = .run deriveRun := ⟨rfl, rfl⟩

/-- The engine issues: the command stays in progress. -/
theorem witness_InputsAreStableWhileBusy :
    let s := { busy deriveRun with events := [.engine] }
    s.status.busy = true ∧ s.engine = .run deriveRun ∧ step s = .next (s.popped.issue deriveRun) ∧
    (s.popped.issue deriveRun).engine = .run { deriveRun with waiting := true } := ⟨rfl, rfl, rfl, rfl⟩

theorem witness_EveryStepKeepsTheInvariant :
    let s := { busy encodeRun with events := [.engine] }
    s.Inv ∧ step s = .next (s.popped.complete encodeRun) := ⟨busy_inv, rfl⟩

theorem witness_EveryStepKeepsTheFlags :
    let s := { busy encodeRun with events := [.engine] }
    s.StatusOk ∧ step s = .next (s.popped.complete encodeRun) := ⟨busy_inv.status, rfl⟩

theorem witness_EveryStepKeepsMemoryCanonical :
    let s := { busy encodeRun with events := [.engine] }
    Memory.wf s.ram ∧ step s = .next (s.popped.complete encodeRun) := ⟨busy_inv.memory.wf, rfl⟩

/-- BUSY rises at a CMD write of 5, and falls at Complete and at reset. -/
theorem witness_BusyChangesOnlyByAcceptanceCompletionReset :
    (∃ t, step (withWrite State.reset 8 .word 5) = .next t ∧ t.status.busy = true) ∧
    (∃ t, step { busy encodeRun with events := [.engine] } = .next t ∧ t.status.busy = false) ∧
    ∃ t, step { busy encodeRun with events := [.resetLow] } = .next t ∧ t.status.busy = false :=
  ⟨⟨_, rfl, rfl⟩, ⟨_, rfl, rfl⟩, _, rfl, rfl⟩

/-- ACCESS_ERR rises at a buffer read while busy, and falls at a STATUS write of 8. -/
theorem witness_AccessErrIsSticky :
    (∃ t, step (withRead (busy encodeRun) 0x10000 .word) = .next t ∧ t.status.accessErr = true) ∧
    ∃ t, step (withWrite { State.reset with status := { Status.reset with accessErr := true } } 12 .word 8) = .next t ∧
      t.status.accessErr = false := ⟨⟨_, rfl, rfl⟩, _, rfl, rfl⟩

/-- N_USED becomes 1 at the acceptance of a DERIVE_BEFORE with n = 1. -/
theorem witness_NUsedIsWrittenOnlyByAcceptance : ∃ t, step (withWrite idle 8 .word 1) = .next t ∧
    t.nUsedLo ≠ idle.nUsedLo := ⟨_, rfl, by decide⟩

/-- A host write changes byte 0x100 while idle, and Complete changes it while busy. -/
theorem witness_RamIsWrittenOnlyBy :
    (∃ t, step (withWrite { State.reset with ram := [(0x100, 0)] } 0x10100 .byte 7) = .next t ∧
      t.ramByte 0x100 = 7) ∧
    (({ busy encodeRun with events := [.engine] } : State).Inv ∧
      ∃ t, step { busy encodeRun with events := [.engine] } = .next t ∧ t.ramByte 0x100 = 1 ∧
        ({ busy encodeRun with events := [.engine] } : State).ramByte 0x100 = 0) :=
  ⟨⟨_, rfl, rfl⟩, busy_inv, _, rfl, rfl, rfl⟩

theorem witness_NoErrorAfterAcceptance : (busy encodeRun).status.busy = true ∧
    ∃ t, step (withWrite (busy encodeRun) 8 .word 0) = .next t := ⟨rfl, _, rfl⟩

/-- The illegal accesses at the edges of each range, with OPMEM_BYTES = 16384 = 0x4000. -/
theorem witness_IllegalAccessChangesNothing :
    ∀ p ∈ [((0xFFF : Nat), Size.byte), (0xFFE, .word), (0x1000, .word), (0xFFFC, .word), (0x10001, .half), (0x13FFE, .word),
        (0x14000, .byte), (0x1FFFF, .byte)],
      State.reset.rstN = true ∧ (BitVec.ofNat 32 p.1).toNat = State.reset.build.blockBase + p.1 ∧
      ((p.1 < 0x1000 ∧ (p.2 ≠ .word ∨ p.1 % 4 ≠ 0)) ∨ (0x1000 ≤ p.1 ∧ p.1 < 0x10000) ∨
        (0x10000 ≤ p.1 ∧ p.1 < 0x20000 ∧
          (0x10000 + State.reset.build.opmemBytes < p.1 + p.2.bytes ∨ (p.1 - 0x10000) % p.2.bytes ≠ 0))) := by
  decide

/-- The addresses on either side of a block at 0x20000. -/
theorem witness_OtherAddressesDoNotReachTheBlock :
    let b := { Config.defaultBuild with blockPage := 1 }
    (0x1FFFF : Word).toNat < b.blockBase ∧ b.blockBase + 0x20000 ≤ (0x40000 : Word).toNat := by decide

/-- The first and the last word, and the last byte, of the buffer window. -/
theorem witness_BufferAccessIsLittleEndian :
    State.reset.rstN = true ∧ State.reset.status.busy = false ∧
    ∀ p ∈ [((0 : Nat), Size.word), (16380, .word), (16383, .byte)],
      (BitVec.ofNat 32 (0x10000 + p.1)).toNat = State.reset.build.blockBase + 0x10000 + p.1 ∧
      p.1 + p.2.bytes ≤ State.reset.build.opmemBytes ∧ p.1 % p.2.bytes = 0 ∧
      (Transaction.write (BitVec.ofNat 32 (0x10000 + p.1)) p.2 0xFF).wellFormed = true := by decide

theorem witness_BufferReadsBackWhatWasWritten :
    State.reset.rstN = true ∧ State.reset.status.busy = false ∧
    (0x13FFE : Word).toNat = State.reset.build.blockBase + 0x10000 + 16382 ∧
    16382 + Size.half.bytes ≤ State.reset.build.opmemBytes ∧ 16382 % Size.half.bytes = 0 ∧
    (Transaction.write 0x13FFE .half 0xFFFF).wellFormed = true := by decide

/-- An offset for each clause, at the edges of its range. -/
theorem witness_BusyRefusals :
    (busy encodeRun).rstN = true ∧ (busy encodeRun).status.busy = true ∧
    (∀ o ∈ [(0x008 : Nat), 0x014, 0x048], o = 0x008 ∨ (0x014 ≤ o ∧ o ≤ 0x048 ∧ o % 4 = 0)) ∧
    (∀ p ∈ [((0x10000 : Nat), Size.word), (0x13FFC, .word), (0x13FFF, .byte)], 0x10000 ≤ p.1 ∧
      p.1 + p.2.bytes ≤ 0x10000 + (busy encodeRun).build.opmemBytes ∧ (p.1 - 0x10000) % p.2.bytes = 0) ∧
    (∀ o ∈ [(0x000 : Nat), 0xFFC], o < 0x1000 ∧ o % 4 = 0) ∧
    (∀ o ∈ [(0x000 : Nat), 0x004, 0x04C, 0xFFC],
      o = 0x000 ∨ o = 0x004 ∨ (0x04C ≤ o ∧ o < 0x1000 ∧ o % 4 = 0)) := by decide

theorem witness_OperandRegistersReadBack :
    State.reset.rstN = true ∧ State.reset.status.busy = false ∧
    ∀ o ∈ [(0x014 : Nat), 0x018, 0x01C, 0x048],
      (BitVec.ofNat 32 o).toNat = State.reset.build.blockBase + o ∧ 0x014 ≤ o ∧ o ≤ 0x048 ∧ o % 4 = 0 := by decide

theorem witness_ReservedOffsetsAndBits :
    State.reset.rstN = true ∧ ∀ o ∈ [(0x054 : Nat), 0xFFC],
      (BitVec.ofNat 32 o).toNat = State.reset.build.blockBase + o ∧ 0x054 ≤ o ∧ o < 0x1000 ∧ o % 4 = 0 := by decide

/-- Each register, and the edges of the CSR window, idle and busy. -/
theorem witness_RegisterReads :
    (withRead State.reset 0 .word).events = [.bus (.read 0 .word)] ∧
    ∀ s ∈ [State.reset, busy encodeRun], ∀ o ∈ [(0x000 : Nat), 0x004, 0x008, 0x00C, 0x010, 0x014, 0x018, 0x01C, 0x020, 0x024,
        0x028, 0x02C, 0x030, 0x034, 0x038, 0x03C, 0x040, 0x044, 0x048, 0x04C, 0x050, 0xFFC],
      s.rstN = true ∧ (BitVec.ofNat 32 o).toNat = s.build.blockBase + o ∧ o < 0x1000 ∧ o % 4 = 0 := by decide

/-- The four registers, idle and busy. -/
theorem witness_ReadOnlyRegistersIgnoreWrites :
    (withWrite State.reset 4 .word 7).events = [.bus (.write 4 .word 7)] ∧
    ∀ s ∈ [State.reset, busy encodeRun], ∀ o ∈ [(0x000 : Nat), 0x004, 0x04C, 0x050],
      s.rstN = true ∧ (BitVec.ofNat 32 o).toNat = s.build.blockBase + o ∧
      (o = 0x000 ∨ o = 0x004 ∨ o = 0x04C ∨ o = 0x050) := by decide

/-- B-13: IRQ_EN written with 0xFFFFFFFF reads 7. -/
theorem test_irqEn_readBack : after (step { State.reset with events := [.bus (.write 16 .word 0xFFFFFFFF)] })
    (·.csrRead 0x010) = some 7 := by decide

theorem witness_StatusWriteClears :
    let s := withWrite State.reset 12 .word 0xE
    s.rstN = true ∧ (12 : Word).toNat = s.build.blockBase + 0x00C ∧ s.events = [.bus (.write 12 .word 0xE)] := by decide

/-- While busy the last byte of the buffer window, and beside it a byte past the window, a misaligned word and a register; and a
buffer read while idle. -/
theorem witness_ReadsHaveNoSideEffect :
    let s := withRead (busy encodeRun) 0x13FFF .byte
    s.events = [.bus (.read 0x13FFF .byte)] ∧ s.rstN = true ∧ s.status.busy = true ∧ s.LegalBuffer 0x13FFF .byte 0x3FFF ∧
    (¬∃ b, s.LegalBuffer 0x14000 .byte b) ∧ (¬∃ b, s.LegalBuffer 0x10002 .word b) ∧ (¬∃ b, s.LegalBuffer 12 .word b) ∧
    (withRead State.reset 0x10000 .word).status.busy = false := by
  refine ⟨rfl, rfl, rfl, ⟨by decide, by decide, by decide⟩, ?_, ?_, ?_, rfl⟩
  all_goals
    rintro ⟨b, ha, hi, hm⟩
    change _ = 0 + 65536 + b at ha
    change b + _ ≤ 16384 at hi
    simp [Size.bytes] at ha hi hm
    omega

theorem witness_InterruptLevel :
    let s := withWrite State.reset 16 .word 7
    s.rstN = true ∧ (16 : Word).toNat = s.build.blockBase + 0x010 ∧ s.events = [.bus (.write 16 .word 7)] := by decide

/-- A reset while idle and one while busy; a transaction while held in reset; the release. -/
theorem witness_ResetEdge :
    ({ State.reset with events := [.resetLow] } : State).engine = .idle ∧
    ({ busy encodeRun with events := [.resetLow] } : State).engine = .run encodeRun ∧
    (withRead { State.reset with rstN := false } 0 .word).rstN = false ∧
    ({ State.reset with rstN := false, events := [.resetHigh] } : State).events = [.resetHigh] := by decide

/-- Five bytes at the aligned end of the buffer RAM, and at an odd offset. -/
theorem witness_FillWritesItsBytes :
    State.reset.rstN = true ∧ State.reset.status.busy = false ∧
    16376 + [0x01, 0x02, 0x03, 0x04, (0x05 : Byte)].length ≤ State.reset.build.opmemBytes ∧
    3 + [0x01, (0x02 : Byte)].length ≤ State.reset.build.opmemBytes ∧
    hostEvents State.reset.build [.fill 16376 [0x01, 0x02, 0x03, 0x04, 0x05]]
      = [.bus (.write 0x13FF8 .word 0x04030201), .bus (.write 0x13FFC .byte 0x05)] := by decide

end Sys2Proof.Tests.Slice0
end

/-! PROOF. The scope of the block (spec/00_scope.md): a command's outcome is a function of the build, the operand registers and
the buffer RAM (R19, R121), and the registry's digest lengths are those of the PRF's answers (R10, R85). -/

namespace Sys2Proof.Machine

/-- Two states that agree on all a command reads: the build, the operand registers and the buffer RAM (R19, R84). -/
structure State.SameOperands (s t : State) : Prop where
  build : t.build = s.build
  algId : t.algId = s.algId
  ctrWidth : t.ctrWidth = s.ctrWidth
  nIterLo : t.nIterLo = s.nIterLo
  nIterHi : t.nIterHi = s.nIterHi
  key : t.key = s.key
  fixa : t.fixa = s.fixa
  fixb : t.fixb = s.fixb
  fixc : t.fixc = s.fixc
  out : t.out = s.out
  ramByte : ∀ a, a < s.build.opmemBytes → t.ramByte a = s.ramByte a

namespace State.SameOperands

variable {s t : State} (h : s.SameOperands t)
include h

theorem nIter : t.nIter = s.nIter := by simp only [State.nIter, h.nIterLo, h.nIterHi]

theorem requestedBits : t.requestedBits = s.requestedBits := by simp only [State.requestedBits, h.out]

/-- A region in bounds lies in the buffer RAM, so its bytes are the same. -/
theorem regionBytes {p : Region} (hp : p.off.toNat + p.len.toNat ≤ s.build.opmemBytes) :
    t.regionBytes p = s.regionBytes p :=
  memRead_congr fun k hk => h.ramByte _ (by omega)

theorem fixedInput (hb : ∀ p ∈ [s.fixa, s.fixb, s.fixc], p.off.toNat + p.len.toNat ≤ s.build.opmemBytes) :
    t.fixedInput = s.fixedInput := by
  simp only [State.fixedInput, h.fixa, h.fixb, h.fixc, h.requestedBits, h.regionBytes (hb s.fixa (by simp)),
    h.regionBytes (hb s.fixb (by simp)), h.regionBytes (hb s.fixc (by simp))]

/-- The message parts need to agree only where every region is in bounds: elsewhere the checks reject the command before a
byte of the buffer RAM matters (R126). -/
theorem derivationPlan {op : Instr} {iterations : Nat → Nat} {inputs : List Region} {pre pre' post post' : Bytes}
    (hkey : s.key ∈ inputs)
    (hparts : (∀ p ∈ inputs, p.off.toNat + p.len.toNat ≤ s.build.opmemBytes) → pre' = pre ∧ post' = post) :
    derivationPlan t op iterations inputs pre' post' = derivationPlan s op iterations inputs pre post := by
  cases hb : (inputs ++ [s.out]).all (Region.inBounds s.build) with
  | false =>
    simp only [Machine.derivationPlan, h.build, h.algId, h.ctrWidth, h.out, hb, Bool.not_false, if_true]
  | true =>
    have hin : ∀ p ∈ inputs, p.off.toNat + p.len.toNat ≤ s.build.opmemBytes :=
      fun p hp => all_inBounds.mp hb p (List.mem_cons_of_mem _ hp)
    obtain ⟨rfl, rfl⟩ := hparts hin
    simp only [Machine.derivationPlan, h.build, h.algId, h.ctrWidth, h.out, h.key, h.regionBytes (hin _ hkey)]

theorem encodeCounterPlan : encodeCounterPlan t = encodeCounterPlan s := by
  simp only [Machine.encodeCounterPlan, h.build, h.algId, h.ctrWidth, h.out, h.nIter]

/-- The checks of a command and its Run record are a function of the operands (R19, R121). -/
theorem commandPlan (i : Instr) : commandPlan t i = commandPlan s i := by
  cases i with
  | deriveBefore =>
    simp only [Machine.commandPlan, deriveBeforePlan, h.nIter, h.key, h.fixa]
    exact h.derivationPlan (by simp) fun hb => ⟨rfl, h.regionBytes (hb _ (by simp))⟩
  | deriveAfter =>
    simp only [Machine.commandPlan, deriveAfterPlan, h.nIter, h.key, h.fixa]
    exact h.derivationPlan (by simp) fun hb => ⟨h.regionBytes (hb _ (by simp)), rfl⟩
  | deriveMiddle =>
    simp only [Machine.commandPlan, deriveMiddlePlan, h.nIter, h.key, h.fixa, h.fixb]
    exact h.derivationPlan (by simp) fun hb => ⟨h.regionBytes (hb _ (by simp)), h.regionBytes (hb _ (by simp))⟩
  | counterKdf =>
    simp only [Machine.commandPlan, counterKdfPlan, h.requestedBits, h.key, h.fixa, h.fixb, h.fixc]
    exact h.derivationPlan (by simp) fun hb => ⟨rfl, h.fixedInput fun p hp => hb p (List.mem_cons_of_mem _ hp)⟩
  | encodeCounter => exact h.encodeCounterPlan

end State.SameOperands

/-- From two idle states one plan gives one outcome. -/
theorem submit_outcome_congr {s t : State} (hs : s.status.busy = false) (ht : t.status.busy = false) (p : Except ErrCode Run) :
    (t.submit p).status.busy = (s.submit p).status.busy ∧ (t.submit p).status.err = (s.submit p).status.err ∧
    (t.submit p).status.errCode = (s.submit p).status.errCode ∧
    ((s.submit p).status.busy = true → (t.submit p).engine = (s.submit p).engine) := by
  cases p with
  | error c => simp [submit_error hs, submit_error ht, Status.rejected, hs, ht]
  | ok r => simp [submit_ok hs, submit_ok ht, Status.accepted]

/-- Settles O15: both states are given the same plan, and an idle state's outcome follows from the plan. -/
theorem outcomeDependsOnRegistersAndRam : Obligations.OutcomeDependsOnRegistersAndRam := by
  intro i s t hs ht build algId ctrWidth nIterLo nIterHi key fixa fixb fixc out ramByte
  have h : s.SameOperands t :=
    { build, algId, ctrWidth, nIterLo, nIterHi, key, fixa, fixb, fixc, out, ramByte }
  refine ⟨_, _, exec_eq_submit i s, exec_eq_submit i t, ?_⟩
  rw [h.commandPlan i]
  exact submit_outcome_congr hs ht _

/-- Settles O21: a registered length is 8 times the positive byte count of the PRF's answer. -/
theorem registryAndPrfLengths : Obligations.RegistryAndPrfLengths := by
  intro b
  refine ⟨rfl, rfl, rfl, fun alg h hreg => ?_⟩
  obtain ⟨d, hd, rfl, hbytes⟩ := registry_spec hreg
  refine ⟨by omega, by omega, fun key msg => ?_⟩
  rw [length_prf, hbytes]
  omega

end Sys2Proof.Machine

/-! PROOF. What a step does to STATUS, N_USED and the engine, said once with its cause, and what follows for the flags over every
step (R25 to R28, R38, R40). -/

namespace Sys2Proof.Machine

/-- N_USED is as it was. -/
structure State.SameCount (s t : State) : Prop where
  lo : t.nUsedLo = s.nUsedLo
  hi : t.nUsedHi = s.nUsedHi

/-- What a step from `s` to `t` does to STATUS, N_USED and the engine, and the event that is its cause. -/
inductive ControlEffect (s t : State) : Prop
  | unchanged (status : t.status = s.status) (engine : t.engine = .idle ↔ s.engine = .idle) (count : s.SameCount t)
  /-- A host access is refused while busy (R189). -/
  | refused (x : Transaction) (es : List Event) (event : s.events = .bus x :: es) (busy : s.status.busy = true)
      (status : t.status = s.status.refused) (engine : t.engine = s.engine) (count : s.SameCount t)
  /-- STATUS is written (R187). -/
  | cleared (a v : Word) (es : List Event) (event : s.events = .bus (.write a .word v) :: es)
      (address : a.toNat = s.build.blockBase + 0x00C) (status : t.status = s.status.cleared v)
      (engine : t.engine = s.engine) (count : s.SameCount t)
  /-- A CMD write is rejected (R185). -/
  | rejected (c : ErrCode) (idle : s.status.busy = false) (status : t.status = s.status.rejected c)
      (engine : t.engine = s.engine) (count : s.SameCount t)
  /-- A CMD write is accepted (R128). -/
  | accepted (a v : Word) (r : Run) (es : List Event) (event : s.events = .bus (.write a .word v) :: es)
      (address : a.toNat = s.build.blockBase + 0x008) (decoded : decode v = .ok r.op) (idle : s.status.busy = false)
      (status : t.status = s.status.accepted) (engine : t.engine = .run r)
      (countLo : t.nUsedLo = if r.op = .encodeCounter then s.nUsedLo else BitVec.ofNat 32 r.n)
      (countHi : t.nUsedHi = if r.op = .encodeCounter then s.nUsedHi else BitVec.ofNat 32 (r.n / 2 ^ 32))
  /-- The engine completes (R134). -/
  | completed (r : Run) (es : List Event) (event : s.events = .engine :: es) (was : s.engine = .run r)
      (status : t.status = s.status.completed) (engine : t.engine = .idle) (count : s.SameCount t)
  /-- An edge with `rst_n` low (R210). -/
  | reset (es : List Event) (event : s.events = .resetLow :: es) (status : t.status = Status.reset)
      (engine : t.engine = .idle)

/-- The plan of a CMD write that is given a Run record is that of the command the word decodes to. -/
theorem wordPlan_eq_ok {s : State} {v : Word} {r : Run} (h : wordPlan s v = .ok r) :
    decode v = .ok r.op ∧ commandPlan s r.op = .ok r := by
  unfold wordPlan at h
  cases hd : decode v with
  | error e => rw [hd] at h; cases h
  | ok i =>
    rw [hd] at h
    obtain rfl := op_of_plan h
    exact ⟨rfl, h⟩

theorem BusEffect.control {s t u : State} {x : Transaction} {es : List Event} (he : s.events = .bus x :: es)
    (hu : u = s.withEvents es) (hx : BusEffect u x t) : ControlEffect s t := by
  subst hu
  cases hx with
  | dropped => exact .unchanged rfl Iff.rfl ⟨rfl, rfl⟩
  | answered => exact .unchanged rfl Iff.rfl ⟨rfl, rfl⟩
  | refused _ hb => exact .refused x es he hb rfl rfl ⟨rfl, rfl⟩
  | buffer => exact .unchanged rfl Iff.rfl ⟨rfl, rfl⟩
  | register a v r _ ha hc =>
    obtain ⟨-, hlo, hhi, -, heng, -, -, -, -, -, hst⟩ := writeCsr_spec ((s.withEvents es).respond .okay 0) r v
    rcases hst with hst | ⟨rfl, hst⟩ | ⟨hb, hst⟩
    · exact .unchanged hst (by rw [heng]; rfl) ⟨hlo, hhi⟩
    · exact .cleared a v es he ha hst heng ⟨hlo, hhi⟩
    · exact .refused _ es he hb hst heng ⟨hlo, hhi⟩
  | command a v _ ha =>
    rcases submit_cases ((s.withEvents es).respond .okay 0) (wordPlan ((s.withEvents es).respond .okay 0) v) with
      ⟨hb, ht⟩ | ⟨hb, c, -, ht⟩ | ⟨hb, r, hp, ht⟩ <;> rw [ht]
    · exact .refused _ es he hb rfl rfl ⟨rfl, rfl⟩
    · exact .rejected c hb rfl rfl ⟨rfl, rfl⟩
    · exact .accepted a v r es he ha (wordPlan_eq_ok hp).1 hb rfl rfl rfl rfl

theorem EngineEffect.control {s t : State} {es : List Event} (he : s.events = .engine :: es)
    (ht : EngineEffect (s.withEvents es) t) : ControlEffect s t := by
  cases ht with
  | none => exact .unchanged rfl Iff.rfl ⟨rfl, rfl⟩
  | issue r h => exact .unchanged rfl (by simp [show s.engine = .run r from h]) ⟨rfl, rfl⟩
  | receive r h => exact .unchanged rfl (by simp [show s.engine = .run r from h]) ⟨rfl, rfl⟩
  | complete r h => exact .completed r es he h rfl rfl ⟨rfl, rfl⟩

/-- Everything a step can do to STATUS, N_USED and the engine. -/
theorem step_control {s t : State} (h : step s = .next t) : ControlEffect s t := by
  have port : ∀ {es : List Event} {t : State}, t = { s.withEvents es with port := t.port } → ControlEffect s t := by
    intro es t ht
    rw [ht]
    exact .unchanged rfl Iff.rfl ⟨rfl, rfl⟩
  cases step_effect h with
  | idle => exact .unchanged rfl Iff.rfl ⟨rfl, rfl⟩
  | bus x es _ he hx => exact hx.control he rfl
  | engine es he => exact (engineStep_effect _).control he
  | reqReady => exact port (portEvent_spec _ _ (.inl rfl))
  | prfAnswer => exact port (portEvent_spec _ _ (.inr (.inl rfl)))
  | rspValid => exact port (portEvent_spec _ _ (.inr (.inr rfl)))
  | resetLow es he => exact .reset es he rfl rfl
  | resetHigh => exact .unchanged rfl Iff.rfl ⟨rfl, rfl⟩

/-- Every error code is one of 1 to 7 (R89). -/
theorem ErrCode.code_bounds (c : ErrCode) : 1 ≤ c.code.toNat ∧ c.code.toNat ≤ 7 := by cases c <;> decide

/-- Settles O34: each thing a step can do to STATUS keeps the flags consistent. -/
theorem everyStepKeepsTheFlags : Obligations.EveryStepKeepsTheFlags := by
  intro s t hs h
  obtain ⟨hrun, hno, hcode, hde, hclear⟩ := hs
  cases step_control h with
  | unchanged hst he => exact State.StatusOk.congr ⟨hrun, hno, hcode, hde, hclear⟩ hst he
  | refused x es _ _ hst he =>
    constructor <;> rw [hst]
    · rw [he]; exact hrun
    all_goals assumption
  | cleared a v es _ _ hst he =>
    constructor <;> rw [hst]
    · rw [he]; exact hrun
    · intro herr
      simp only [Status.cleared, Bool.and_eq_false_iff, Bool.not_eq_false'] at herr ⊢
      split
      · rfl
      · next hv => exact hno (herr.resolve_right hv)
    · intro herr
      simp only [Status.cleared, Bool.and_eq_true, Bool.not_eq_true'] at herr ⊢
      obtain ⟨herr, hv⟩ := herr
      rw [if_neg (by rw [hv]; decide)]
      exact hcode herr
    · simp only [Status.cleared, Bool.and_eq_true]
      exact fun hc => hde ⟨hc.1.1, hc.2.1⟩
    · intro hb
      obtain ⟨hd, he⟩ := hclear hb
      simp [Status.cleared, hd, he]
  | rejected c hb hst he =>
    constructor <;> rw [hst]
    · rw [he]; exact hrun
    · simp [Status.rejected]
    · exact fun _ => c.code_bounds
    · simp [Status.rejected]
    · simp [Status.rejected, hb]
  | accepted a v r es _ _ _ _ hst he => constructor <;> simp [hst, he, Status.accepted]
  | completed r es _ hwas hst he =>
    have herr : s.status.err = false := (hclear (hrun.mpr (by simp [hwas]))).2
    constructor <;> simp [hst, he, herr, hno herr, Status.completed]
  | reset es _ hst he => constructor <;> simp [hst, he, Status.reset]

/-- Settles O36: of what a step can do to STATUS, only an acceptance sets BUSY and only Complete and reset clear it. -/
theorem busyChangesOnlyByAcceptanceCompletionReset : Obligations.BusyChangesOnlyByAcceptanceCompletionReset := by
  intro s t h
  refine ⟨fun h0 h1 => ?_, fun h1 h0 => ?_⟩
  · cases step_control h with
    | accepted a v r es hev ha hd _ _ he => exact ⟨a, v, r.op, r, es, hev, ha, hd, he, rfl⟩
    | unchanged hst => rw [hst, h0] at h1; cases h1
    | refused x es _ hb => rw [h0] at hb; cases hb
    | cleared a v es _ _ hst => rw [hst, Status.cleared, h0] at h1; cases h1
    | rejected c _ hst => rw [hst, Status.rejected, h0] at h1; cases h1
    | completed r es _ _ hst => rw [hst] at h1; cases h1
    | reset es _ hst => rw [hst] at h1; cases h1
  · cases step_control h with
    | completed r es hev _ hst he => exact .inl ⟨es, hev, by rw [hst]; rfl, he⟩
    | reset es hev => exact .inr ⟨es, hev⟩
    | unchanged hst => rw [hst, h1] at h0; cases h0
    | refused x es _ _ hst => rw [hst, Status.refused, h1] at h0; cases h0
    | cleared a v es _ _ hst => rw [hst, Status.cleared, h1] at h0; cases h0
    | rejected c hb => rw [h1] at hb; cases hb
    | accepted a v r es _ _ _ hb => rw [h1] at hb; cases hb

/-- Settles O37: of what a step can do to STATUS, only a refusal sets ACCESS_ERR and only a STATUS write and reset clear it. -/
theorem accessErrIsSticky : Obligations.AccessErrIsSticky := by
  intro s t h
  refine ⟨fun h0 h1 => ?_, fun h1 h0 => ?_⟩
  · cases step_control h with
    | refused x es hev hb => exact ⟨hb, x, es, hev⟩
    | unchanged hst => rw [hst, h0] at h1; cases h1
    | cleared a v es _ _ hst => rw [hst, Status.cleared, h0] at h1; cases h1
    | rejected c _ hst => rw [hst, Status.rejected, h0] at h1; cases h1
    | accepted a v r es _ _ _ _ hst => rw [hst, Status.accepted, h0] at h1; cases h1
    | completed r es _ _ hst => rw [hst, Status.completed, h0] at h1; cases h1
    | reset es _ hst => rw [hst] at h1; cases h1
  · cases step_control h with
    | cleared a v es hev ha hst =>
      refine .inr ⟨a, v, es, hev, ha, ?_⟩
      simpa [hst, Status.cleared, h1] using h0
    | reset es hev => exact .inl ⟨es, hev⟩
    | unchanged hst => rw [hst, h1] at h0; cases h0
    | refused x es _ _ hst => rw [hst] at h0; cases h0
    | rejected c _ hst => rw [hst, Status.rejected, h1] at h0; cases h0
    | accepted a v r es _ _ _ _ hst => rw [hst, Status.accepted, h1] at h0; cases h0
    | completed r es _ _ hst => rw [hst, Status.completed, h1] at h0; cases h0

/-- Settles O38: every step but an acceptance and a reset keeps N_USED, and so does an acceptance of ENCODE_COUNTER. -/
theorem nUsedIsWrittenOnlyByAcceptance : Obligations.NUsedIsWrittenOnlyByAcceptance := by
  intro s t h hne
  have changed : ¬ s.SameCount t := fun hc => hne.elim (absurd hc.lo) (absurd hc.hi)
  cases step_control h with
  | reset es hev => exact .inl ⟨es, hev⟩
  | accepted a v r es hev ha hd hb _ he hlo hhi =>
    have hop : r.op ≠ .encodeCounter := fun hop => changed ⟨by simpa [hop] using hlo, by simpa [hop] using hhi⟩
    rw [if_neg hop] at hlo hhi
    refine .inr ⟨a, v, r.op, r, es, hev, ha, hd, hop, hb, he, ?_, hhi⟩
    rw [hlo]
    exact BitVec.eq_of_toNat_eq (by simp)
  | unchanged _ _ hc => exact absurd hc changed
  | refused _ _ _ _ _ _ hc => exact absurd hc changed
  | cleared _ _ _ _ _ _ _ hc => exact absurd hc changed
  | rejected _ _ _ _ hc => exact absurd hc changed
  | completed _ _ _ _ _ _ hc => exact absurd hc changed

end Sys2Proof.Machine

/-! PROOF. The invariant of the machine (R25, R27, R40, R44, R52, R97, R98, R133): it holds at reset and every step keeps it. -/

namespace Sys2Proof.Machine

/- ### The beats of a request, read back by the PRF core -/

theorem last_of_messageBeats {alg : Byte} {msg : Bytes} {xs ys : List ReqBeat} {b : ReqBeat}
    (h : messageBeats alg msg = xs ++ b :: ys) : b.last = ys.isEmpty ∧ b.alg = alg := by
  induction msg generalizing xs with
  | nil => simp [messageBeats] at h
  | cons m ms ih =>
    cases xs with
    | nil =>
      simp only [messageBeats, List.nil_append, List.cons.injEq] at h
      obtain ⟨rfl, rfl⟩ := h
      cases ms <;> simp [messageBeats]
    | cons x xs =>
      simp only [messageBeats, List.cons_append, List.cons.injEq] at h
      exact ih h.2

/-- A beat of a request with a message is marked exactly when it is the last one (R97). -/
theorem last_of_requestBeats {q : PrfRequest} (hm : q.msg ≠ []) {xs ys : List ReqBeat} {b : ReqBeat}
    (h : requestBeats q = xs ++ b :: ys) : b.last = ys.isEmpty ∧ b.alg = q.alg := by
  obtain ⟨alg, key, msg⟩ := q
  induction key generalizing xs with
  | nil => exact last_of_messageBeats h
  | cons k ks ih =>
    cases xs with
    | nil =>
      simp only [requestBeats, List.map_cons, List.cons_append, List.nil_append, List.cons.injEq] at h
      obtain ⟨rfl, rfl⟩ := h
      cases msg with
      | nil => exact absurd rfl hm
      | cons m ms => simp [messageBeats]
    | cons x xs =>
      simp only [requestBeats, List.map_cons, List.cons_append, List.cons.injEq] at h
      exact ih hm h.2

theorem beatBytes_messageBeats (kind : BeatKind) (alg : Byte) (msg : Bytes) :
    beatBytes kind (messageBeats alg msg) = if kind = .message then msg else [] := by
  induction msg with
  | nil => simp [messageBeats, beatBytes]
  | cons m ms ih => cases kind <;> simp_all [messageBeats, beatBytes]

theorem beatBytes_requestBeats (kind : BeatKind) (q : PrfRequest) :
    beatBytes kind (requestBeats q) = if kind = .message then q.msg else q.key := by
  have happ : beatBytes kind (requestBeats q)
      = beatBytes kind (q.key.map fun b => { alg := q.alg, kind := .key, byte := b, last := false })
        ++ beatBytes kind (messageBeats q.alg q.msg) := by simp [beatBytes, requestBeats]
  rw [happ, beatBytes_messageBeats]
  cases kind <;> simp [beatBytes, List.filter_map, Function.comp_def]

/-- The PRF core reads a request only once it has taken all its beats, and then reads that request (R97). -/
theorem assembleRequest_of_append {q q' : PrfRequest} (hm : q.msg ≠ []) {core rest : List ReqBeat}
    (hb : core ++ rest = requestBeats q) (ha : assembleRequest core = some q') : rest = [] ∧ q' = q := by
  unfold assembleRequest at ha
  cases hl : core.getLast? with
  | none => rw [hl] at ha; cases ha
  | some b =>
    obtain ⟨init, rfl⟩ := List.getLast?_eq_some_iff.mp hl
    rw [List.append_assoc, List.singleton_append] at hb
    obtain ⟨hlast, halg⟩ := last_of_requestBeats hm hb.symm
    rw [hl] at ha
    cases rest with
    | cons _ _ => simp [hlast] at ha
    | nil =>
      simp only [hlast, List.isEmpty_nil, if_true, Option.some.injEq, halg, hb, beatBytes_requestBeats] at ha
      exact ⟨rfl, ha.symm⟩

/- ### The port's events -/

/-- In the invariant the port is quiet, or carries the request or the answer of the iteration in progress. -/
theorem portOk_cases {b : Config.Build} {p : PrfPort} {e : Engine} (h : e.PortOk b p) :
    p = PrfPort.quiet ∨
      ∃ r, e = .run r ∧ r.waiting = true ∧ r.i ≤ r.n ∧ (r.Sending p ∨ r.Receiving b p) := by
  cases e with
  | idle => exact .inl h
  | run r =>
    cases hw : r.waiting with
    | false => exact .inl ((portOk_between hw).mp h)
    | true => exact .inr ⟨r, rfl, hw, (portOk_waiting hw).mp h⟩

theorem portOk_takeRequestBeat {s : State} (h : s.engine.PortOk s.build s.port) :
    s.engine.PortOk s.build s.takeRequestBeat.port := by
  unfold State.takeRequestBeat
  split
  · exact h
  next b bs hreq =>
  rcases portOk_cases h with hq | ⟨r, he, hw, hi, ⟨hbeats, hrest⟩ | ⟨hnone, -⟩⟩
  · simp [hq, PrfPort.quiet] at hreq
  · rw [he, portOk_waiting hw]
    exact ⟨hi, .inl ⟨by simpa [hreq] using hbeats, hrest⟩⟩
  · simp [hreq] at hnone

/-- The PRF core's answer to the request of iteration `i` is `d_i`, of at least one byte (R95, R132). -/
theorem portOk_prfAnswer {s : State} (hrun : ∀ r, s.engine = .run r → r.Ok s.build)
    (h : s.engine.PortOk s.build s.port) : s.engine.PortOk s.build s.prfAnswer.port := by
  unfold State.prfAnswer
  split
  · exact h
  next q hq =>
  rcases portOk_cases h with hp | ⟨r, he, hw, hi, ⟨hbeats, -, hgot, hlast⟩ | ⟨-, hcore, -⟩⟩
  · simp [hp, PrfPort.quiet, assembleRequest] at hq
  · obtain ⟨hreq, rfl⟩ := assembleRequest_of_append (message_ne_nil r r.i) hbeats hq
    have hd : r.digest s.build r.i ≠ [] := by
      have hok := hrun r he
      rw [← List.length_pos_iff, length_digest]
      exact digestBytes_pos hok (op_of_iterations_left hok hi)
    rw [he, portOk_waiting hw]
    exact ⟨hi, .inr ⟨hreq, rfl, r.digest s.build r.i, by simp [hgot], rfl, by simp [hlast, hd]⟩⟩
  · simp [hcore, assembleRequest] at hq

theorem portOk_takeResponseBeat {s : State} (h : s.engine.PortOk s.build s.port) :
    s.engine.PortOk s.build s.takeResponseBeat.port := by
  unfold State.takeResponseBeat
  split
  · exact h
  next b bs hrsp =>
  split
  swap
  · exact h
  rcases portOk_cases h with hq | ⟨r, he, hw, hi, ⟨-, hnone, -⟩ | ⟨hreq, hcore, rest, hdig, hbeats, -⟩⟩
  · simp [hq, PrfPort.quiet] at hrsp
  · simp [hrsp] at hnone
  · rw [hrsp] at hbeats
    cases rest with
    | nil => cases hbeats
    | cons d ds =>
      obtain ⟨rfl, rfl⟩ := List.cons.inj hbeats
      rw [he, portOk_waiting hw]
      exact ⟨hi, .inr ⟨hreq, hcore, ds, by simp [hdig], rfl, rfl⟩⟩

/- ### The invariant, operation by operation -/

theorem State.StatusOk.busy_of_run {s : State} (h : s.StatusOk) {r : Run} (he : s.engine = .run r) :
    s.status.busy = true := h.busy_iff_run.mpr (by simp [he])

theorem State.StatusOk.idle_of_not_busy {s : State} (h : s.StatusOk) (hb : s.status.busy = false) : s.engine = .idle := by
  by_contra hne
  rw [h.busy_iff_run.mpr hne] at hb
  cases hb

theorem Run.Ok.withWaiting {b : Config.Build} {r : Run} (h : r.Ok b) (w : Bool) : ({ r with waiting := w } : Run).Ok b :=
  ⟨h.outInside, h.started, h.bounded, h.count, h.acc, h.encode, h.derive⟩

/-- Receive appends `d_i` and moves to iteration `i + 1` (R133). -/
theorem Run.Ok.next {b : Config.Build} {r : Run} (h : r.Ok b) (hi : r.i ≤ r.n) :
    ({ r with waiting := false, i := r.i + 1, acc := r.acc ++ r.digest b r.i } : Run).Ok b := by
  have hacc : r.acc ++ r.digest b r.i = r.accumulated b r.i := by
    obtain ⟨k, hk⟩ := Nat.exists_eq_add_of_le' h.started
    rw [h.acc, hk, Nat.add_sub_cancel, ← accumulated_succ]
  exact ⟨h.outInside, Nat.le_add_left 1 _, Nat.succ_le_succ hi, h.count, hacc, h.encode, h.derive⟩

namespace State.Inv

variable {s t : State}

/-- While rst_n is held low BUSY is 0 (R210). -/
theorem rstN_of_busy (h : s.Inv) (hb : s.status.busy = true) : s.rstN = true := by
  cases hr : s.rstN with
  | true => rfl
  | false => rw [(h.held hr).2] at hb; cases hb

/-- A state in Run, out of reset, is in the invariant when its parts are. -/
theorem of_run {r : Run} (he : t.engine = .run r) (hst : t.StatusOk) (hm : t.MemoryOk) (hr : r.Ok t.build)
    (hp : Engine.PortOk t.build t.port (.run r)) (hrst : t.rstN = true) : t.Inv := by
  refine ⟨hst, hm, fun r' he' => ?_, by rw [he]; exact hp, fun h0 => ?_⟩
  · rw [he] at he'
    cases he'
    exact hr
  · rw [hrst] at h0
    cases h0

/-- An Idle state out of reset, or with STATUS = 0, is in the invariant when its parts are. -/
theorem of_idle (he : t.engine = .idle) (hst : t.StatusOk) (hm : t.MemoryOk) (hp : t.port = PrfPort.quiet)
    (hheld : t.rstN = false → t.status = Status.reset) : t.Inv := by
  refine ⟨hst, hm, fun r he' => ?_, by rw [he]; exact hp, fun h0 => ⟨he, hheld h0⟩⟩
  rw [he] at he'
  cases he'

theorem withEvents (h : s.Inv) (es : List Event) : (s.withEvents es).Inv :=
  h.congr (h.status.congr rfl Iff.rfl) rfl rfl rfl rfl fun h0 => ⟨h0, rfl⟩

theorem port_quiet (h : s.Inv) (he : s.engine = .idle) : s.port = PrfPort.quiet := by
  have hp := h.port
  rw [he] at hp
  exact hp

/-- A submission rejects or refuses, which leave all but STATUS alone, or starts a record that the rules reach. -/
theorem submit (h : s.Inv) (hrst : s.rstN = true) {v : Word} (hst : (s.submit (wordPlan s v)).StatusOk) :
    (s.submit (wordPlan s v)).Inv := by
  have hold : ∀ {P : Prop}, s.rstN = false → P := fun h0 => absurd (hrst.symm.trans h0) (by decide)
  rcases submit_cases s (wordPlan s v) with ⟨_, ht⟩ | ⟨_, c, -, ht⟩ | ⟨hb, r, hp, ht⟩ <;> rw [ht] at hst ⊢
  · exact h.congr hst rfl rfl rfl rfl hold
  · exact h.congr hst rfl rfl rfl rfl hold
  · obtain ⟨hok, hw, -, -⟩ := run_of_plan (wordPlan_eq_ok hp).2
    exact of_run rfl hst ⟨h.memory.wf, h.memory.inside⟩ hok
      ((portOk_between hw).mpr (h.port_quiet (h.status.idle_of_not_busy hb))) hrst

/-- A byte string written inside OPMEM_BYTES keeps the invariant. -/
theorem memWrite (h : s.Inv) {off : Nat} {v : Bytes} (hi : off + v.length ≤ s.build.opmemBytes) :
    (s.memWrite off v).Inv :=
  ⟨h.status.congr rfl Iff.rfl, h.memory.store hi rfl rfl, h.run, h.port, h.held⟩

theorem bus (h : s.Inv) {x : Transaction} (hx : BusEffect s x t) (hst : t.StatusOk) : t.Inv := by
  have hresp : (s.respond .okay 0).Inv :=
    h.congr (h.status.congr rfl Iff.rfl) rfl rfl rfl rfl fun h0 => ⟨h0, rfl⟩
  cases hx with
  | dropped => exact h.congr hst rfl rfl rfl rfl fun h0 => ⟨h0, rfl⟩
  | answered => exact h.congr hst rfl rfl rfl rfl fun h0 => ⟨h0, rfl⟩
  | refused _ hb =>
    exact h.congr hst rfl rfl rfl rfl fun h0 => absurd ((h.rstN_of_busy hb).symm.trans h0) (by decide)
  | register a v r hr =>
    obtain ⟨hb, -, -, hm, he, hp, hn, -⟩ := writeCsr_spec (s.respond .okay 0) r v
    exact h.congr hst hb hm he hp fun h0 => absurd (hr.symm.trans (hn.symm.trans h0)) (by decide)
  | command a v hr => exact hresp.submit hr hst
  | buffer a v z b _ _ _ hi => exact hresp.memWrite (by simpa using hi)

theorem engineStep (h : s.Inv) (ht : EngineEffect s t) (hst : t.StatusOk) : t.Inv := by
  cases ht with
  | none => exact h
  | issue r he hw hi =>
    have hq : s.port = PrfPort.quiet := by
      have hp := h.port
      rwa [he, portOk_between hw] at hp
    refine of_run rfl hst ⟨h.memory.wf, h.memory.inside⟩ ((h.run r he).withWaiting true) ?_
      (h.rstN_of_busy (h.status.busy_of_run he))
    refine (portOk_waiting rfl).mpr ⟨hi, .inl ?_⟩
    rw [State.issue_port, hq]
    exact ⟨rfl, rfl, rfl, rfl⟩
  | receive r he hw hl =>
    have hp := h.port
    rw [he, portOk_waiting hw] at hp
    obtain ⟨hi, ⟨-, -, -, hl'⟩ | ⟨hreq, hcore, rest, hdig, hrsp, hrest⟩⟩ := hp
    · rw [hl] at hl'
      cases hl'
    · obtain rfl : rest = [] := by simpa [hl] using hrest
      have hgot : s.port.got = r.digest s.build r.i := by simpa using hdig.symm
      have hok := (h.run r he).next hi
      rw [← hgot] at hok
      refine of_run rfl hst ⟨h.memory.wf, h.memory.inside⟩ hok ((portOk_between rfl).mpr ?_)
        (h.rstN_of_busy (h.status.busy_of_run he))
      simp [hreq, hcore, hrsp, responseBeats, PrfPort.quiet]
  | complete r he hw hi =>
    have hok := h.run r he
    have hrst := h.rstN_of_busy (h.status.busy_of_run he)
    have hp := h.port
    rw [he, portOk_between hw] at hp
    refine of_idle rfl hst (h.memory.store ?_ rfl rfl) hp fun h0 => absurd (hrst.symm.trans h0) (by decide)
    rw [(result_eq_output hok hi).2]
    exact hok.outInside

/-- A port event is judged by the port it leaves. -/
theorem portEvent (h : s.Inv) (ht : t = s.takeRequestBeat ∨ t = s.prfAnswer ∨ t = s.takeResponseBeat)
    (hst : t.StatusOk) : t.Inv := by
  have hp : s.engine.PortOk s.build t.port := by
    rcases ht with rfl | rfl | rfl
    · exact portOk_takeRequestBeat h.port
    · exact portOk_prfAnswer h.run h.port
    · exact portOk_takeResponseBeat h.port
  have heq := portEvent_spec s t ht
  rw [heq] at hst ⊢
  exact ⟨hst, ⟨h.memory.wf, h.memory.inside⟩, h.run, hp, h.held⟩

/-- A reset leaves the engine Idle, the port quiet and STATUS 0; it writes at most the abandoned output region (R210 to R213). -/
theorem resetLow (h : s.Inv) (hst : s.resetLow.StatusOk) : s.resetLow.Inv := by
  refine of_idle rfl hst ?_ rfl fun _ => rfl
  cases he : s.engine with
  | idle =>
    have hm : s.resetLow.ram = s.ram := by simp [State.resetRam, he]
    exact ⟨by rw [hm]; exact h.memory.wf, by rw [hm]; exact h.memory.inside⟩
  | run r =>
    have hm : s.resetLow.ram = Memory.storeBytes s.ram r.outOff.toNat (resetDraws s.draws r.outLen.toNat) := by
      simp [State.resetRam, he]
    exact h.memory.store (by simpa [resetDraws] using (h.run r he).outInside) rfl hm

end State.Inv

/-- Settles O33: the flags are kept on their own, and each event keeps the other parts. -/
theorem everyStepKeepsTheInvariant : Obligations.EveryStepKeepsTheInvariant := by
  intro s t hs h
  have hst := everyStepKeepsTheFlags s t hs.status h
  cases step_effect h with
  | idle => exact hs
  | bus x es _ _ hx => exact (hs.withEvents es).bus hx hst
  | engine es => exact (hs.withEvents es).engineStep (engineStep_effect _) hst
  | reqReady es => exact (hs.withEvents es).portEvent (.inl rfl) hst
  | prfAnswer es => exact (hs.withEvents es).portEvent (.inr (.inl rfl)) hst
  | rspValid es => exact (hs.withEvents es).portEvent (.inr (.inr rfl)) hst
  | resetLow es => exact (hs.withEvents es).resetLow hst
  | resetHigh es => exact hs.congr hst rfl rfl rfl rfl fun h0 => by simp at h0

/-- Settles O32: STATUS is 0, the engine Idle, the port quiet and no byte of the buffer RAM written. -/
theorem invariantHoldsAtReset : Obligations.InvariantHoldsAtReset := by
  have hst : State.reset.StatusOk := by constructor <;> decide
  exact State.Inv.of_idle rfl hst ⟨List.Pairwise.nil, fun c hc => absurd hc List.not_mem_nil⟩ rfl fun _ => rfl

end Sys2Proof.Machine

/-! PROOF. The registers as a host sees them (R20 to R39, R42, R46, R187): the words of STATUS and IRQ_EN, the writes of each
register, and the command a CMD write runs (R121). -/

namespace Sys2Proof.Machine

/- ### Fields of a word -/

theorem bitValue_le (b : Bool) : bitValue b ≤ 1 := by cases b <;> decide

theorem bitValue_eq_one {b : Bool} : bitValue b = 1 ↔ b = true := by cases b <;> decide

theorem bitValue_getLsbD (v : Word) (k : Nat) : bitValue (v.getLsbD k) = v.toNat / 2 ^ k % 2 := by
  rw [← BitVec.testBit_toNat, Nat.testBit_eq_decide_div_mod_eq]
  rcases Nat.mod_two_eq_zero_or_one (v.toNat / 2 ^ k) with h | h <;> simp [h, bitValue]

/-- A bit of a word, as a bit of the number it is. -/
theorem getLsbD_eq_of_div_mod {v : Word} {k : Nat} {b : Bool} (h : v.toNat / 2 ^ k % 2 = bitValue b) : v.getLsbD k = b := by
  rw [← bitValue_getLsbD] at h
  rw [Bool.eq_iff_iff, ← bitValue_eq_one, ← bitValue_eq_one, h]

/-- A field that is 0 has no bit set. -/
theorem outside_of_extractLsb'_eq_zero {v : Word} {start len k : Nat} (h : v.extractLsb' start len = 0)
    (hk : v.getLsbD k = true) : k < start ∨ start + len ≤ k := by
  by_contra hc
  have hbit := congrArg (·.getLsbD (k - start)) h
  simp only [BitVec.getLsbD_extractLsb', show start + (k - start) = k by omega, hk] at hbit
  simp at hbit
  omega

/-- The low byte of a word is all an 8-bit field takes of it (R30, R31). -/
theorem zeroExtendByte_extractLsb' (v : Word) : zeroExtendByte (v.extractLsb' 0 8) = v &&& 0xFF := by
  apply BitVec.eq_of_toNat_eq
  have h := Nat.and_two_pow_sub_one_eq_mod v.toNat 8
  simp only [zeroExtendByte, BitVec.toNat_setWidth, BitVec.extractLsb'_toNat, BitVec.toNat_and]
  simp at h ⊢
  omega

theorem extractLsb'_and_byteMask (v : Word) : (v &&& 0xFF).extractLsb' 0 8 = v.extractLsb' 0 8 := by
  rw [← zeroExtendByte_extractLsb']
  apply BitVec.eq_of_toNat_eq
  simp [zeroExtendByte]

/-- STATUS as a number: no field overlaps another (R24). -/
theorem Status.toNat_word (f : Status) : f.word.toNat = bitValue f.busy + 2 * bitValue f.done + 4 * bitValue f.err
    + 8 * bitValue f.accessErr + 0x100 * f.errCode.toNat := by
  have h1 := bitValue_le f.busy
  have h2 := bitValue_le f.done
  have h3 := bitValue_le f.err
  have h4 := bitValue_le f.accessErr
  have h5 := f.errCode.isLt
  rw [Status.word, BitVec.toNat_ofNat]
  omega

theorem IrqEn.toNat_word (e : IrqEn) :
    e.word.toNat = bitValue e.doneIe + 2 * bitValue e.errIe + 4 * bitValue e.accessIe := by
  have h1 := bitValue_le e.doneIe
  have h2 := bitValue_le e.errIe
  have h3 := bitValue_le e.accessIe
  rw [IrqEn.word, BitVec.toNat_ofNat]
  omega

/-- IRQ_EN reads back the three bits that were written (R29). -/
theorem IrqEn.word_ofWord (v : Word) : (IrqEn.ofWord v).word = v &&& 0x7 := by
  apply BitVec.eq_of_toNat_eq
  have h := Nat.and_two_pow_sub_one_eq_mod v.toNat 3
  simp only [IrqEn.toNat_word, IrqEn.ofWord, bitValue_getLsbD, BitVec.toNat_and]
  simp at h ⊢
  omega

/-- Settles O49: each field is read off the number that STATUS is. -/
theorem statusWordLayout : Obligations.StatusWordLayout := by
  intro f
  have h1 := bitValue_le f.busy
  have h2 := bitValue_le f.done
  have h3 := bitValue_le f.err
  have h4 := bitValue_le f.accessErr
  have h5 := f.errCode.isLt
  have hw := f.toNat_word
  refine ⟨getLsbD_eq_of_div_mod (by omega), getLsbD_eq_of_div_mod (by omega), getLsbD_eq_of_div_mod (by omega),
    getLsbD_eq_of_div_mod (by omega), BitVec.eq_of_toNat_eq ?_, BitVec.eq_of_toNat_eq ?_, BitVec.eq_of_toNat_eq ?_⟩
  all_goals
    simp only [BitVec.extractLsb'_toNat, Nat.shiftRight_eq_div_pow, BitVec.toNat_ofNat]
    omega

/-- IRQ_EN has no bit set above its three fields (R29, R39). -/
theorem IrqEn.lt_of_getLsbD_word {e : IrqEn} {k : Nat} (hk : e.word.getLsbD k = true) : k < 3 := by
  have h1 := bitValue_le e.doneIe
  have h2 := bitValue_le e.errIe
  have h3 := bitValue_le e.accessIe
  by_contra hc
  rw [← BitVec.testBit_toNat, IrqEn.toNat_word, Nat.testBit_lt_two_pow] at hk
  · cases hk
  · calc _ < 2 ^ 3 := by omega
      _ ≤ 2 ^ k := Nat.pow_le_pow_right (by omega) (by omega)

theorem lt_of_getLsbD_zeroExtendByte {v : Byte} {k : Nat} (hk : (zeroExtendByte v).getLsbD k = true) : k < 8 := by
  rw [zeroExtendByte, BitVec.getLsbD_setWidth, Bool.and_eq_true] at hk
  exact BitVec.lt_of_getLsbD hk.2

/- ### Reads and writes of one register -/

theorem Csr.offset_lt (r : Csr) : r.offset < 0x054 := by cases r <;> decide

theorem Csr.offset_mod_four (r : Csr) : r.offset % 4 = 0 := by cases r <;> rfl

/-- Every aligned offset below the reserved ones is a register's (R20). -/
theorem exists_csr_of_offset {o : Nat} (h : o < 0x054) (h4 : o % 4 = 0) : ∃ r : Csr, o = r.offset := by
  have hall : ∀ k < 21, (Csr.ofOffset (4 * k)).isSome = true := by decide
  obtain ⟨r, hr⟩ := Option.isSome_iff_exists.mp (hall (o / 4) (by omega))
  rw [show 4 * (o / 4) = o by omega] at hr
  exact ⟨r, ofOffset_eq_some.mp hr⟩

@[simp] theorem csrRead_offset (s : State) (r : Csr) : s.csrRead r.offset = s.csrValue r := by
  simp only [State.csrRead, ofOffset_offset]

theorem csrRead_reserved (s : State) {o : Nat} (h : 0x054 ≤ o) : s.csrRead o = 0 := by
  simp only [State.csrRead, ofOffset_reserved h]

@[simp] theorem csrValue_answered (s : State) (r : Resp) (d : Word) (q : Csr) :
    (s.answered r d).csrValue q = s.csrValue q := by cases q <;> rfl

theorem writeCsrWindow_offset (s : State) {r : Csr} (hc : r ≠ .cmd) (v : Word) :
    s.writeCsrWindow r.offset v = .next (s.writeCsr r v) := by
  cases r with
  | cmd => exact absurd rfl hc
  | _ => rfl

/-- A legal write of a register other than CMD (R54). -/
theorem step_of_register_write {s : State} {a v : Word} {es : List Event} {r : Csr} (hc : r ≠ .cmd) (hr : s.rstN = true)
    (ha : a.toNat = s.build.blockBase + r.offset) (h : s.events = .bus (.write a .word v) :: es) :
    step s = .next ((s.answered .okay 0).writeCsr r v) := by
  rw [step_of_csr_write hr ha (Nat.lt_trans r.offset_lt (by decide)) r.offset_mod_four h, writeCsrWindow_offset _ hc]

/-- A register write while idle leaves every other register alone. -/
theorem csrValue_writeCsr_of_ne {s : State} (hb : s.status.busy = false) {r q : Csr} (hq : q ≠ r) (v : Word) :
    (s.writeCsr r v).csrValue q = s.csrValue q := by
  have hw : ∀ t, s.writeOperand t = t := by simp [State.writeOperand, hb]
  cases r <;> cases q <;> simp [State.writeCsr, hw, State.csrValue] at hq ⊢

/-- An operand register written while idle holds what was written, or its low byte (R30 to R37). -/
theorem csrValue_writeCsr_self {s : State} (hb : s.status.busy = false) {r : Csr} (h1 : 0x014 ≤ r.offset)
    (h2 : r.offset ≤ 0x048) (v : Word) :
    (s.writeCsr r v).csrValue r = if r.offset = 0x014 ∨ r.offset = 0x018 then v &&& 0xFF else v := by
  have hw : ∀ t, s.writeOperand t = t := by simp [State.writeOperand, hb]
  cases r <;> simp only [State.writeCsr, hw]
  case algId | ctrWidth => exact zeroExtendByte_extractLsb' v
  case id | caps | cmd | status | irqEn | nUsedLo | nUsedHi => simp [Csr.offset] at h1 h2
  all_goals rfl

/-- Settles O46: the write is of one register, and a register write leaves all but STATUS and that register alone. -/
theorem operandRegistersReadBack : Obligations.OperandRegistersReadBack := by
  intro s es a v o hr hb ha h1 h2 h4 he
  obtain ⟨r, rfl⟩ := exists_csr_of_offset (by omega) h4
  have hc : r ≠ .cmd := by
    rintro rfl
    exact absurd h1 (by decide)
  have hidle : (s.answered .okay 0).status.busy = false := hb
  obtain ⟨-, -, -, hram, heng, hport, -, -, hrsp, -⟩ := writeCsr_spec (s.answered .okay 0) r v
  refine ⟨_, step_of_register_write hc hr ha he, hrsp, ?_, fun p hp => ?_, hram, heng, hport⟩
  · rw [csrRead_offset, csrValue_writeCsr_self hidle h1 h2]
  · unfold State.csrRead
    cases hq : Csr.ofOffset p with
    | none => rfl
    | some q =>
      have hne : q ≠ r := by
        rintro rfl
        exact hp (ofOffset_eq_some.mp hq)
      exact (csrValue_writeCsr_of_ne hidle hne v).trans (csrValue_answered s _ _ q)

/-- Settles O47: no register stands at a reserved offset, and no field of a register takes in a reserved bit. -/
theorem reservedOffsetsAndBits : Obligations.ReservedOffsetsAndBits := by
  refine ⟨fun s es a v o hr ha h1 h2 h4 => ⟨fun he => ?_, fun he => ?_⟩, fun s v => ⟨fun k hk => ?_, fun k hk => ?_,
    fun k hk => ?_, fun k hk => ?_, ?_, ?_, ?_, ?_⟩⟩
  · rw [step_of_csr_read hr ha h2 h4 he, csrRead_reserved s h1]
  · rw [step_of_csr_write hr ha h2 h4 he]
    simp only [State.writeCsrWindow, ofOffset_reserved h1]
  · obtain ⟨-, -, -, -, hlow, -, hhigh⟩ := statusWordLayout s.status
    have h1 := outside_of_extractLsb'_eq_zero hlow hk
    have h2 := outside_of_extractLsb'_eq_zero hhigh hk
    have h3 := BitVec.lt_of_getLsbD hk
    omega
  · exact IrqEn.lt_of_getLsbD_word hk
  · exact lt_of_getLsbD_zeroExtendByte hk
  · exact lt_of_getLsbD_zeroExtendByte hk
  · simp [State.writeCsr, Status.cleared]
  · simp [State.writeCsr, IrqEn.ofWord]
  · simp only [State.writeCsr, extractLsb'_and_byteMask]
  · simp only [State.writeCsr, extractLsb'_and_byteMask]

/-- Settles O50: the write is STATUS's write-1-to-clear. -/
theorem statusWriteClears : Obligations.StatusWriteClears := by
  intro s es a v hr ha he
  exact step_of_register_write (r := .status) (by decide) hr ha he

/-- Settles O56: a write of a read-only register is only answered. -/
theorem readOnlyRegistersIgnoreWrites : Obligations.ReadOnlyRegistersIgnoreWrites := by
  intro s es a v o hr ha ho he
  rcases ho with rfl | rfl | rfl | rfl
  · exact step_of_register_write (r := .id) (by decide) hr ha he
  · exact step_of_register_write (r := .caps) (by decide) hr ha he
  · exact step_of_register_write (r := .nUsedLo) (by decide) hr ha he
  · exact step_of_register_write (r := .nUsedHi) (by decide) hr ha he

theorem irq_eq_true {s : State} : s.irq = true ↔ (s.status.done = true ∧ s.irqEn.doneIe = true) ∨
    (s.status.err = true ∧ s.irqEn.errIe = true) ∨ (s.status.accessErr = true ∧ s.irqEn.accessIe = true) := by
  simp [State.irq, or_assoc]

/-- Settles O52: the write replaces IRQ_EN, and irq is computed from STATUS and the new IRQ_EN. -/
theorem interruptLevel : Obligations.InterruptLevel := by
  refine ⟨rfl, rfl, fun s => irq_eq_true, fun s es a v hr ha he => ?_⟩
  exact ⟨_, step_of_register_write (r := .irqEn) (by decide) hr ha he, rfl, IrqEn.word_ofWord v, irq_eq_true⟩

/-- Settles O53: every register but ID, CAPS and CTR_WIDTH is 0 at reset, as every reserved offset is. -/
theorem registersAfterReset : Obligations.RegistersAfterReset := by
  refine ⟨rfl, rfl, rfl, fun o hid hcaps hwidth => ?_, rfl⟩
  unfold State.csrRead
  cases ho : Csr.ofOffset o with
  | none => rfl
  | some r =>
    have hoff := ofOffset_eq_some.mp ho
    cases r with
    | id => exact absurd hoff hid
    | caps => exact absurd hoff hcaps
    | ctrWidth => exact absurd hoff hwidth
    | _ => rfl

/- ### The command a CMD write runs -/

/-- A legal CMD write of a command's word (R121). -/
theorem step_of_cmd_write {s : State} {a v : Word} {i : Instr} {es : List Event} (hr : s.rstN = true)
    (ha : a.toNat = s.build.blockBase + 0x008) (hd : decode v = .ok i) (he : s.events = .bus (.write a .word v) :: es) :
    step s = exec i (s.answered .okay 0) := by
  rw [step_of_csr_write hr ha (by decide) (by decide) he]
  show State.writeCmd _ v = _
  simp only [State.writeCmd, hd]

theorem decode_encode (i : Instr) : decode (encode i) = .ok i := by cases i <;> rfl

/-- Settles O4: the write of `withFetchWord` is one of the command's own word at CMD's address. -/
theorem stepRunsTheDecodedCommand : Obligations.StepRunsTheDecodedCommand := by
  refine ⟨fun s es a v i hr he ha hd => step_of_cmd_write hr ha hd he, fun s i hr => ?_⟩
  have hword : BitVec.ofNat 32 ((encode i).toNat % 2 ^ 32) = encode i := by cases i <;> rfl
  have hev : (s.withFetchWord 32 (encode i).toNat).events
      = .bus (.write (Build.address s.build 0x008) .word (encode i)) :: s.events := by
    simp only [State.withFetchWord, State.placeCommand, cmdWriteEvent, hword, Csr.offset]
  rw [step_of_cmd_write (s := s.withFetchWord 32 (encode i).toNat) rfl (toNat_address s.build (by decide))
    (decode_encode i) hev]
  congr 1
  simp [State.answered, State.withFetchWord, State.placeCommand, hr]

end Sys2Proof.Machine

/-! PROOF. The buffer RAM and the host bus (R51 to R66, R220): what a step does to the RAM, said once with its cause; what a step
does to the inputs of a command in progress; and the accesses of the buffer window and the CSR window. -/

namespace Sys2Proof.Machine

/- ### What a step does to the buffer RAM -/

/-- What a step from `s` to `t` does to the buffer RAM, and the event that is its cause. -/
inductive MemoryEffect (s t : State) : Prop
  | kept (ram : t.ram = s.ram)
  /-- The host writes (R58, R62). -/
  | written (a v : Word) (z : Size) (b : Nat) (es : List Event) (event : s.events = .bus (.write a z v) :: es)
      (address : a.toNat = s.build.blockBase + 0x10000 + b) (idle : s.status.busy = false) (released : s.rstN = true)
      (ram : t.ram = Memory.storeBytes s.ram b (littleEndianBytes z.bytes v.toNat))
  /-- The engine completes (R134). -/
  | completed (r : Run) (es : List Event) (event : s.events = .engine :: es) (was : s.engine = .run r) (last : r.n < r.i)
      (done : t.status.done = true) (ram : t.ram = Memory.storeBytes s.ram r.outOff.toNat r.result)
  /-- An edge with `rst_n` low while a command is in progress (R212). -/
  | abandoned (r : Run) (es : List Event) (event : s.events = .resetLow :: es) (was : s.engine = .run r)
      (ram : t.ram = Memory.storeBytes s.ram r.outOff.toNat (resetDraws s.draws r.outLen.toNat))

theorem BusEffect.memory {s t u : State} {x : Transaction} {es : List Event} (he : s.events = .bus x :: es)
    (hu : u = s.withEvents es) (hx : BusEffect u x t) : t.build = s.build ∧ MemoryEffect s t := by
  subst hu
  cases hx with
  | dropped => exact ⟨rfl, .kept rfl⟩
  | answered => exact ⟨rfl, .kept rfl⟩
  | refused => exact ⟨rfl, .kept rfl⟩
  | register a v r =>
    obtain ⟨hbuild, -, -, hram, -⟩ := writeCsr_spec ((s.withEvents es).respond .okay 0) r v
    exact ⟨hbuild, .kept hram⟩
  | command a v =>
    obtain ⟨hbuild, hram, -⟩ := submit_frame ((s.withEvents es).respond .okay 0) (wordPlan ((s.withEvents es).respond .okay 0) v)
    exact ⟨hbuild, .kept hram⟩
  | buffer a v z b hr hb ha => exact ⟨rfl, .written a v z b es he ha hb hr rfl⟩

theorem EngineEffect.memory {s t : State} {es : List Event} (he : s.events = .engine :: es)
    (ht : EngineEffect (s.withEvents es) t) : t.build = s.build ∧ MemoryEffect s t := by
  cases ht with
  | none => exact ⟨rfl, .kept rfl⟩
  | issue => exact ⟨rfl, .kept rfl⟩
  | receive => exact ⟨rfl, .kept rfl⟩
  | complete r h _ hi => exact ⟨rfl, .completed r es he h hi rfl rfl⟩

/-- Everything a step can do to the buffer RAM; the build is constant (R10). -/
theorem step_memory {s t : State} (h : step s = .next t) : t.build = s.build ∧ MemoryEffect s t := by
  have port : ∀ {es : List Event} {t : State}, t = { s.withEvents es with port := t.port } →
      t.build = s.build ∧ MemoryEffect s t := by
    intro es t ht
    rw [ht]
    exact ⟨rfl, .kept rfl⟩
  cases step_effect h with
  | idle => exact ⟨rfl, .kept rfl⟩
  | bus x es _ he hx => exact hx.memory he rfl
  | engine es he => exact (engineStep_effect _).memory he
  | reqReady => exact port (portEvent_spec _ _ (.inl rfl))
  | prfAnswer => exact port (portEvent_spec _ _ (.inr (.inl rfl)))
  | rspValid => exact port (portEvent_spec _ _ (.inr (.inr rfl)))
  | resetLow es he =>
    refine ⟨rfl, ?_⟩
    cases hrun : s.engine with
    | idle => exact .kept (by simp [State.resetRam, hrun])
    | run r => exact .abandoned r es he hrun (by simp [State.resetRam, hrun])
  | resetHigh => exact ⟨rfl, .kept rfl⟩

/-- Settles O35: whatever a step writes, it stores a byte string, which keeps the canonical form. -/
theorem everyStepKeepsMemoryCanonical : Obligations.EveryStepKeepsMemoryCanonical := by
  intro s t hwf h
  obtain ⟨hbuild, hm⟩ := step_memory h
  refine ⟨?_, hbuild⟩
  cases hm with
  | kept hram => rw [hram]; exact hwf
  | written _ _ _ _ _ _ _ _ _ hram => rw [hram]; exact Memory.wf_storeBytes hwf _ _
  | completed _ _ _ _ _ _ hram => rw [hram]; exact Memory.wf_storeBytes hwf _ _
  | abandoned _ _ _ _ hram => rw [hram]; exact Memory.wf_storeBytes hwf _ _

/-- A byte that a store changes is one it covers. -/
theorem covered_of_ramByte_ne {s t : State} {off x : Nat} {v : Bytes} (h : t.ram = Memory.storeBytes s.ram off v)
    (hne : t.ramByte x ≠ s.ramByte x) : off ≤ x ∧ x < off + v.length := by
  by_contra hc
  exact hne (State.ramByte_outside h (by omega))

/-- Settles O39: a byte that changes is covered by the write, or by the out_len bytes that Complete or a reset stores at out_off. -/
theorem ramIsWrittenOnlyBy : Obligations.RamIsWrittenOnlyBy := by
  intro s t x hs h hne
  cases (step_memory h).2 with
  | kept hram => exact absurd (State.ramByte_congr hram x) hne
  | written a v z b es hev ha hb hr hram =>
    obtain ⟨h1, h2⟩ := covered_of_ramByte_ne hram hne
    rw [length_littleEndianBytes] at h2
    exact .inl ⟨hb, hr, a, z, v, b, es, hev, ha, h1, h2⟩
  | completed r es hev hrun hi hdone hram =>
    obtain ⟨h1, h2⟩ := covered_of_ramByte_ne hram hne
    rw [(result_eq_output (hs.run r hrun) hi).2] at h2
    exact .inr ⟨r, hrun, h1, h2, .inl ⟨es, hev, hdone⟩⟩
  | abandoned r es hev hrun hram =>
    obtain ⟨h1, h2⟩ := covered_of_ramByte_ne hram hne
    simp only [resetDraws, List.length_map, List.length_range] at h2
    exact .inr ⟨r, hrun, h1, h2, .inr ⟨es, hev⟩⟩

/- ### The inputs of a command in progress -/

/-- Nothing has changed from `s` to `t` but STATUS, IRQ_EN, the engine's record, the ports and `rst_n`. -/
def State.InputsKept (s t : State) : Prop :=
  t = { s with
    status := t.status, irqEn := t.irqEn, engine := t.engine, port := t.port, rstN := t.rstN, events := t.events,
    busRsp := t.busRsp }

/-- The records `r` and `r'` are of one command: they differ at most in how far it has come (R40). -/
def Run.SameCommand (r r' : Run) : Prop := r' = { r with i := r'.i, waiting := r'.waiting, acc := r'.acc }

/-- A register write other than of CMD, while busy, keeps BUSY and the inputs (R46, R189). -/
theorem writeCsr_inputsKept {s : State} (hb : s.status.busy = true) (r : Csr) (v : Word) :
    s.InputsKept (s.writeCsr r v) ∧ (s.writeCsr r v).status.busy = true := by
  have hw : ∀ t, s.writeOperand t = s.refuseAccess := by simp [State.writeOperand, hb]
  cases r <;> simp only [State.writeCsr, hw] <;> exact ⟨rfl, hb⟩

/-- A host transaction while busy keeps BUSY, the record and the inputs (R66). -/
theorem BusEffect.inputsKept {s t : State} {x : Transaction} (hx : BusEffect s x t) (hb : s.status.busy = true) :
    s.InputsKept t ∧ t.status.busy = true ∧ t.engine = s.engine := by
  cases hx with
  | dropped => exact ⟨rfl, hb, rfl⟩
  | answered => exact ⟨rfl, hb, rfl⟩
  | refused => exact ⟨rfl, hb, rfl⟩
  | register a v r =>
    obtain ⟨hkept, hbusy⟩ := writeCsr_inputsKept (s := s.respond .okay 0) hb r v
    obtain ⟨-, -, -, -, heng, -⟩ := writeCsr_spec (s.respond .okay 0) r v
    exact ⟨hkept, hbusy, heng⟩
  | command a v =>
    rw [submit_busy (s := s.respond .okay 0) hb]
    exact ⟨rfl, hb, rfl⟩
  | buffer _ _ _ _ _ hidle => rw [hb] at hidle; cases hidle

/-- A step of the engine that leaves it in Run only moves the command's record on (R130). -/
theorem EngineEffect.inputsKept {s t : State} {r r' : Run} (ht : EngineEffect s t) (hb : s.status.busy = true)
    (he : s.engine = .run r) (he' : t.engine = .run r') :
    s.InputsKept t ∧ t.status.busy = true ∧ r.SameCommand r' := by
  cases ht with
  | none => rw [he] at he'; cases he'; exact ⟨rfl, hb, rfl⟩
  | issue q hq => rw [he] at hq; cases hq; cases he'; exact ⟨rfl, hb, rfl⟩
  | receive q hq => rw [he] at hq; cases hq; cases he'; exact ⟨rfl, hb, rfl⟩
  | complete => cases he'

/-- A step while busy after which the engine is still in Run keeps BUSY, the command and its inputs (R66, R220). -/
theorem step_inputsKept {s t : State} {r r' : Run} (hb : s.status.busy = true) (he : s.engine = .run r)
    (h : step s = .next t) (he' : t.engine = .run r') : s.InputsKept t ∧ t.status.busy = true ∧ r.SameCommand r' := by
  have same : t.engine = s.engine → r.SameCommand r' := by
    intro hse
    rw [he, he'] at hse
    cases hse
    rfl
  have port : ∀ {es : List Event}, t = { s.withEvents es with port := t.port } →
      s.InputsKept t ∧ t.status.busy = true ∧ r.SameCommand r' := by
    intro es ht
    refine ⟨?_, ?_, same ?_⟩ <;> rw [ht]
    · rfl
    · exact hb
    · rfl
  cases step_effect h with
  | idle => exact ⟨rfl, hb, same rfl⟩
  | bus x es _ _ hx =>
    obtain ⟨hkept, hbusy, hse⟩ := hx.inputsKept hb
    exact ⟨hkept, hbusy, same hse⟩
  | engine => exact (engineStep_effect _).inputsKept hb he he'
  | reqReady => exact port (portEvent_spec _ _ (.inl rfl))
  | prfAnswer => exact port (portEvent_spec _ _ (.inr (.inl rfl)))
  | rspValid => exact port (portEvent_spec _ _ (.inr (.inr rfl)))
  | resetLow => cases he'
  | resetHigh => exact ⟨rfl, hb, same rfl⟩

/-- Settles O31: each input is a field that no step changes while the engine stays in Run. -/
theorem inputsAreStableWhileBusy : Obligations.InputsAreStableWhileBusy := by
  intro s t r r' hb he h he'
  obtain ⟨hkept, hbusy, hsame⟩ := step_inputsKept hb he h he'
  rw [State.InputsKept] at hkept
  rw [Run.SameCommand] at hsame
  rw [hkept, hsame]
  exact ⟨rfl, rfl, rfl, rfl, rfl, rfl, rfl, rfl, rfl, hbusy, rfl, rfl, rfl, rfl, rfl, rfl, rfl, rfl, rfl, fun _ => rfl⟩

/- ### Accesses that reach no register and no byte -/

/-- The accesses that R54 to R56 do not allow. -/
theorem target_illegal (b : Config.Build) {o : Nat} {z : Size}
    (h : (o < 0x1000 ∧ (z ≠ .word ∨ o % 4 ≠ 0)) ∨ (0x1000 ≤ o ∧ o < 0x10000) ∨
      (0x10000 ≤ o ∧ (0x10000 + b.opmemBytes < o + z.bytes ∨ (o - 0x10000) % z.bytes ≠ 0))) :
    Build.target b o z = .illegal := by
  have hs := target_spec b o z
  cases ht : Build.target b o z with
  | illegal => rfl
  | csr p =>
    rw [ht] at hs
    obtain ⟨-, ho, hz, h4⟩ := hs
    rcases h with ⟨-, hz' | h4'⟩ | h | h
    · exact absurd hz hz'
    all_goals omega
  | buffer p =>
    rw [ht] at hs
    obtain ⟨ho, hp, hin, hal⟩ := hs
    rw [hp] at hin hal
    omega

/-- Settles O41: the access names nothing, and is only answered. -/
theorem illegalAccessChangesNothing : Obligations.IllegalAccessChangesNothing := by
  intro s es a v z o hr ha h
  have ht : Build.target s.popped.build o z = .illegal := target_illegal s.build
    (h.imp_right (Or.imp_right fun ⟨h1, _, h2⟩ => ⟨h1, h2⟩))
  have ho : o < 0x20000 := by omega
  refine ⟨fun he => ?_, fun he => ?_⟩
  · rw [step_of_read hr ha ho he, State.readOffset, ht]
    rfl
  · rw [step_of_write hr ha ho he, State.writeOffset, ht]
    rfl

/-- Settles O42: the block has no offset for the address. -/
theorem otherAddressesDoNotReachTheBlock : Obligations.OtherAddressesDoNotReachTheBlock := by
  intro s es a v z h
  have ho : Build.offsetOf? s.popped.build a = none := offsetOf?_outside h
  refine ⟨fun he => ?_, fun he => ?_⟩
  · rw [step_of_bus he, transact_outside (t := .read a z) ho]
    rfl
  · rw [step_of_bus he, transact_outside (t := .write a z v) ho]
    rfl

/- ### The buffer window -/

/-- A legal read of the buffer window (R55). -/
theorem step_of_buffer_read {s : State} {a : Word} {z : Size} {b : Nat} {es : List Event} (hr : s.rstN = true)
    (hl : s.LegalBuffer a z b) (h : s.events = .bus (.read a z) :: es) : step s = .next (s.popped.readBuffer b z) := by
  obtain ⟨ha, hb, hz⟩ := hl
  rw [step_of_read hr (ha.trans (Nat.add_assoc _ _ _)) (buffer_offset_lt hb) h, State.readOffset,
    target_buffer_offset (s := s.popped) hb hz]

/-- A legal write of the buffer window while idle (R55, R62). -/
theorem step_of_buffer_write {s : State} {a v : Word} {z : Size} {b : Nat} {es : List Event} (hr : s.rstN = true)
    (hi : s.status.busy = false) (hl : s.LegalBuffer a z b) (h : s.events = .bus (.write a z v) :: es) :
    step s = .next ((s.answered .okay 0).memWrite b (littleEndianBytes z.bytes v.toNat)) := by
  obtain ⟨ha, hb, hz⟩ := hl
  rw [step_of_write hr (ha.trans (Nat.add_assoc _ _ _)) (buffer_offset_lt hb) h, State.writeOffset,
    target_buffer_offset (s := s.popped) hb hz]
  have hi' : (s.popped.respond .okay 0).status.busy = false := hi
  simp only [State.writeBuffer, hi']
  rfl

theorem readBuffer_idle {s : State} (hi : s.status.busy = false) (b : Nat) (z : Size) :
    s.readBuffer b z = s.respond .okay (BitVec.ofNat 32 (littleEndianValue (s.memRead b z.bytes))) := by
  simp [State.readBuffer, hi]

theorem readBuffer_busy {s : State} (hb : s.status.busy = true) (b : Nat) (z : Size) :
    s.readBuffer b z = s.refuseAccess.respond .okay 0 := by
  simp [State.readBuffer, hb]

/-- The little-endian number of a byte string, as R58 sums it. -/
theorem littleEndianValue_map_range (f : Nat → Byte) (n : Nat) :
    littleEndianValue ((List.range n).map f) = ∑ k ∈ Finset.range n, (f k).toNat * 2 ^ (8 * k) := by
  induction n generalizing f with
  | zero => rfl
  | succ n ih =>
    rw [List.range_succ_eq_map, List.map_cons, List.map_map, littleEndianValue, ih, Finset.sum_range_succ', Finset.mul_sum,
      Nat.add_comm]
    congr 1
    · refine Finset.sum_congr rfl fun k _ => ?_
      rw [Function.comp_apply, Nat.mul_succ, pow_add]
      ring
    · simp

/-- Byte `k` of a number is its `k`-th digit to the base 256 (R58). -/
theorem ofNat_div_pow_byte (v k : Nat) : BitVec.ofNat 8 (v / 256 ^ k) = BitVec.ofNat 8 (v / 2 ^ (8 * k) % 256) := by
  apply BitVec.eq_of_toNat_eq
  simp [pow_mul]

/-- Settles O43: the read sums the bytes, and the write stores the datum's digits to the base 256. -/
theorem bufferAccessIsLittleEndian : Obligations.BufferAccessIsLittleEndian := by
  intro s es a v z b hr hi ha hb hz
  have hl : s.LegalBuffer a z b := ⟨ha, hb, hz⟩
  refine ⟨fun he => ?_, fun _ he => ⟨_, step_of_buffer_write hr hi hl he, rfl, fun k hk => ?_, fun x hx => ?_⟩⟩
  · rw [step_of_buffer_read hr hl he, readBuffer_idle (s := s.popped) hi, State.memRead, littleEndianValue_map_range]
    rfl
  · rw [State.ramByte_inside (s := s) rfl (by simpa using hk), getElem_littleEndianBytes, ofNat_div_pow_byte]
  · exact State.ramByte_outside (s := s) rfl (by simpa using hx)

/-- A byte string is read back from where it was written (R15). -/
theorem memRead_memWrite (s : State) (off : Nat) (v : Bytes) : (s.memWrite off v).memRead off v.length = v := by
  refine List.ext_getElem (by simp) fun k h1 h2 => ?_
  rw [State.getElem_memRead, State.ramByte_inside (s := s) rfl h2]

/-- A buffer read while idle of the bytes just written there answers their number (R58, R60). -/
theorem step_of_buffer_read_memWrite {s : State} {a : Word} {z : Size} {b : Nat} {v : Bytes} {es : List Event}
    (hr : s.rstN = true) (hi : s.status.busy = false) (hl : s.LegalBuffer a z b) (hv : v.length = z.bytes)
    (h : s.events = .bus (.read a z) :: es) :
    step (s.memWrite b v)
      = .next ((s.memWrite b v).popped.respond .okay (BitVec.ofNat 32 (littleEndianValue v))) := by
  have hl' : (s.memWrite b v).LegalBuffer a z b := ⟨hl.address, hl.inside, hl.aligned⟩
  have hread : (s.memWrite b v).popped.memRead b z.bytes = v := hv ▸ memRead_memWrite s b v
  rw [step_of_buffer_read (s := s.memWrite b v) hr hl' h, readBuffer_idle (s := (s.memWrite b v).popped) hi, hread]

theorem Size.dataBound_eq (z : Size) : z.dataBound = 256 ^ z.bytes := by cases z <;> rfl

/-- Settles O44: the read answers the number of the bytes written, and a datum of the size is that number. -/
theorem bufferReadsBackWhatWasWritten : Obligations.BufferReadsBackWhatWasWritten := by
  intro s es a v z b hr hi ha hb hz hv he
  have hfit : v.toNat < 256 ^ z.bytes := by
    rw [← Size.dataBound_eq]
    simpa [Transaction.wellFormed] using hv
  have hvalue : BitVec.ofNat 32 (littleEndianValue (littleEndianBytes z.bytes v.toNat)) = v := by
    rw [littleEndianValue_bytes _ _ hfit, BitVec.ofNat_toNat, BitVec.setWidth_eq]
  have hwrite := step_of_buffer_write hr hi ⟨ha, hb, hz⟩ he
  have hread := step_of_buffer_read_memWrite (s := s.answered .okay 0) (es := es) hr hi ⟨ha, hb, hz⟩
    (length_littleEndianBytes z.bytes v.toNat) (by simp [State.answered, he])
  rw [hvalue] at hread
  exact ⟨_, (run_succ hwrite).trans (run_succ hread), rfl, by simp [State.popped, State.answered, he]⟩

/- ### Reads -/

/-- A read is answered and changes nothing else, or is a legal one of the buffer window. -/
theorem readOffset_cases (s : State) (o : Nat) (z : Size) :
    (∃ r d, s.readOffset o z = s.respond r d) ∨
    ∃ b, o = 0x10000 + b ∧ b + z.bytes ≤ s.build.opmemBytes ∧ b % z.bytes = 0 ∧ s.readOffset o z = s.readBuffer b z := by
  have hs := target_spec s.build o z
  unfold State.readOffset
  cases ht : Build.target s.build o z with
  | csr p => exact .inl ⟨_, _, rfl⟩
  | illegal => exact .inl ⟨_, _, rfl⟩
  | buffer b =>
    rw [ht] at hs
    obtain ⟨ho, hbo, hin, hal⟩ := hs
    exact .inr ⟨b, by omega, hin, hal, rfl⟩

/-- A read that is not a legal one of the buffer window while busy is at most answered. -/
theorem transact_read_frame {s : State} {a : Word} {z : Size}
    (h : ¬(s.rstN = true ∧ s.status.busy = true ∧ ∃ b, s.LegalBuffer a z b)) :
    ∃ t, s.transact (.read a z) = .next t ∧ { t with busRsp := s.busRsp } = s := by
  cases hr : s.rstN with
  | false => exact ⟨_, transact_held hr _, rfl⟩
  | true =>
    cases ho : Build.offsetOf? s.build a with
    | none => exact ⟨_, transact_outside (t := .read a z) ho, rfl⟩
    | some o =>
      rw [transact_read hr ho]
      rcases readOffset_cases s o z with ⟨r, d, hd⟩ | ⟨b, rfl, hin, hal, hread⟩
      · exact ⟨_, congrArg _ hd, rfl⟩
      · have hl : s.LegalBuffer a z b := ⟨(offsetOf?_eq_some ho).1.trans (Nat.add_assoc _ _ _).symm, hin, hal⟩
        have hi : s.status.busy = false := by
          rw [← Bool.not_eq_true]
          exact fun hb => h ⟨hr, hb, b, hl⟩
        exact ⟨_, congrArg _ (hread.trans (readBuffer_idle hi b z)), rfl⟩

/-- Settles O51: only the busy branch of a legal buffer read touches STATUS. -/
theorem readsHaveNoSideEffect : Obligations.ReadsHaveNoSideEffect := by
  intro s es a z he
  refine ⟨fun ⟨hr, hb, b, hl⟩ => ?_, fun h => ?_⟩
  · rw [step_of_buffer_read hr hl he, readBuffer_busy (s := s.popped) hb]
    rfl
  · have h' : ¬(s.popped.rstN = true ∧ s.popped.status.busy = true ∧ ∃ b, s.popped.LegalBuffer a z b) :=
      fun ⟨hr, hb, b, ha, hin, hal⟩ => h ⟨hr, hb, b, ha, hin, hal⟩
    obtain ⟨t, ht, hframe⟩ := transact_read_frame h'
    exact ⟨t, (step_of_bus he).trans ht, hframe⟩

/-- The fields of IRQ_EN stand at their bits in the word a host reads (R29). -/
theorem IrqEn.word_layout (e : IrqEn) : e.word.getLsbD 0 = e.doneIe ∧ e.word.getLsbD 1 = e.errIe ∧
    e.word.getLsbD 2 = e.accessIe ∧ e.word.extractLsb' 3 29 = 0#29 := by
  have h1 := bitValue_le e.doneIe
  have h2 := bitValue_le e.errIe
  have h3 := bitValue_le e.accessIe
  have hw := e.toNat_word
  refine ⟨getLsbD_eq_of_div_mod (by omega), getLsbD_eq_of_div_mod (by omega), getLsbD_eq_of_div_mod (by omega),
    BitVec.eq_of_toNat_eq ?_⟩
  simp only [BitVec.extractLsb'_toNat, Nat.shiftRight_eq_div_pow, BitVec.toNat_ofNat]
  omega

/-- A read of a register (R54). -/
theorem step_of_register_read {s : State} {a : Word} {es : List Event} {r : Csr} (hr : s.rstN = true)
    (ha : a.toNat = s.build.blockBase + r.offset) (h : s.events = .bus (.read a .word) :: es) :
    step s = .next (s.answered .okay (s.csrValue r)) := by
  rw [step_of_csr_read hr ha (Nat.lt_trans r.offset_lt (by decide)) r.offset_mod_four h, csrRead_offset]

/-- CAPS reads the size of the buffer RAM (R22). -/
theorem toNat_caps (s : State) : (s.csrValue .caps).toNat = s.build.opmemBytes := by
  have := opmemBytes_bounds s.build
  simp only [State.csrValue, BitVec.toNat_ofNat]
  omega

/-- Settles O48: each offset is its register's, and a read answers that register's value. -/
theorem registerReads : Obligations.RegisterReads := by
  intro s es a o hr ha he
  have read : ∀ r : Csr, o = r.offset → step s = .next (s.answered .okay (s.csrValue r)) := by
    rintro r rfl
    exact step_of_register_read hr ha he
  refine ⟨fun ho h4 => step_of_csr_read hr ha ho h4 he, read .id, fun ho => ?_, read .cmd, read .nUsedLo, read .nUsedHi,
    read .status, fun ho => ⟨s.irqEn.word, read .irqEn ho, s.irqEn.word_layout⟩, read .algId, read .ctrWidth, read .nIterLo,
    read .nIterHi, read .keyOff, read .keyLen, read .fixaOff, read .fixaLen, read .fixbOff, read .fixbLen, read .fixcOff,
    read .fixcLen, read .outOff, read .outLen⟩
  obtain ⟨hmin, hmax⟩ := opmemBytes_bounds s.build
  exact ⟨_, read .caps ho, toNat_caps s, by rw [Config.Build.opmemBytes]; omega, hmin, hmax⟩

end Sys2Proof.Machine

/-! PROOF. The encodings (spec/30_encoding.md): the command word and what a CMD write of an illegal one does (R80 to R83), the
bytes of the standard fixed input (R91), the beats of the PRF port and its events (R95 to R99), and the pseudo-instruction `fill`
of a host program (R101). -/

namespace Sys2Proof.Machine

/- ### The command word -/

/-- The per-command encoding facts, for every command. -/
theorem encoding_statement (i : Instr) : Laws.Encoding.Statement i := by
  cases i with
  | deriveBefore => exact Laws.Encoding.deriveBefore
  | deriveAfter => exact Laws.Encoding.deriveAfter
  | deriveMiddle => exact Laws.Encoding.deriveMiddle
  | counterKdf => exact Laws.Encoding.counterKdf
  | encodeCounter => exact Laws.Encoding.encodeCounter

/-- RSVD and OPCODE are all of a word (R80). -/
theorem word_ext_fields {v w : Word} (hr : rsvdField v = rsvdField w) (ho : opcodeField v = opcodeField w) : v = w := by
  have hr := congrArg BitVec.toNat hr
  have ho := congrArg BitVec.toNat ho
  simp only [rsvdField, opcodeField, BitVec.extractLsb'_toNat, Nat.shiftRight_eq_div_pow] at hr ho
  apply BitVec.eq_of_toNat_eq
  omega

theorem mem_of_lookupOpcode {op : Byte} {i : Instr} {rows : List (Byte × Instr)} (h : lookupOpcode op rows = some i) :
    (op, i) ∈ rows := by
  induction rows with
  | nil => cases h
  | cons row rows ih =>
    rw [lookupOpcode] at h
    split at h
    · next hc => cases h; simp [← hc]
    · exact List.mem_cons_of_mem _ (ih h)

/-- Each row of the opcode map holds the OPCODE of its command's word (R81). -/
theorem opcodeField_encode_of_mem {op : Byte} {i : Instr} (h : (op, i) ∈ opcodeMap) : opcodeField (encode i) = op := by
  have rows : ∀ row ∈ opcodeMap, opcodeField (encode row.2) = row.1 := by decide
  exact rows _ h

/-- What a word that decodes holds in its two fields (R81). -/
theorem fields_of_decode {v : Word} {i : Instr} (h : decode v = .ok i) :
    rsvdField v = 0 ∧ lookupOpcode (opcodeField v) opcodeMap = some i := by
  unfold decode at h
  split at h
  · next hr =>
    cases hl : lookupOpcode (opcodeField v) opcodeMap with
    | none => rw [hl] at h; cases h
    | some j => rw [hl] at h; cases h; exact ⟨hr, rfl⟩
  · cases h

theorem decode_eq_ok_iff {v : Word} {i : Instr} : decode v = .ok i ↔ v = encode i := by
  refine ⟨fun h => ?_, ?_⟩
  · obtain ⟨hr, hl⟩ := fields_of_decode h
    obtain ⟨-, -, hr', -⟩ := encoding_statement i
    exact word_ext_fields (hr.trans hr'.symm) (opcodeField_encode_of_mem (mem_of_lookupOpcode hl)).symm
  · rintro rfl
    exact decode_encode i

/-- Settles O1: the two fields of a word that decodes are those of the command's word, and they are all of it. -/
theorem decodeAndEncodeAgree : Obligations.DecodeAndEncodeAgree := by
  refine ⟨fun _ _ => decode_eq_ok_iff, fun i => ?_, rfl, rfl, rfl, rfl, rfl⟩
  obtain ⟨-, -, -, -, -, -, htable⟩ := encoding_statement i
  exact htable

/-- Settles O2: five of the words are the commands' own, and the others fail the check of one field. -/
theorem writtenOutWordsDecode : Obligations.WrittenOutWordsDecode :=
  ⟨decode_encode .deriveBefore, decode_encode .deriveAfter, decode_encode .deriveMiddle, decode_encode .counterKdf,
    decode_encode .encodeCounter, rfl, rfl, rfl, rfl⟩

/-- A word that R82 calls illegal selects no command. -/
theorem decode_illegal {v : Word} (h : rsvdField v ≠ 0 ∨ (opcodeField v).toNat = 0 ∨ 6 ≤ (opcodeField v).toNat) :
    ∃ e, decode v = .error e := by
  cases hd : decode v with
  | error e => exact ⟨e, rfl⟩
  | ok i =>
    obtain rfl := decode_eq_ok_iff.mp hd
    obtain ⟨-, -, hr, hmin, hmax, -⟩ := encoding_statement i
    rcases h with h | h
    · exact absurd hr h
    · omega

/-- A legal CMD write of any word submits the word's plan (R82, R121). -/
theorem step_of_word_write {s : State} {a v : Word} {es : List Event} (hr : s.rstN = true)
    (ha : a.toNat = s.build.blockBase + 0x008) (he : s.events = .bus (.write a .word v) :: es) :
    step s = .next ((s.answered .okay 0).submit (wordPlan (s.answered .okay 0) v)) := by
  rw [step_of_csr_write hr ha (by decide) (by decide) he]
  exact writeCmd_eq _ v

theorem wordPlan_illegal {s : State} {v : Word} {e : DecodeError} (h : decode v = .error e) :
    wordPlan s v = .error .illegalCommand := by simp only [wordPlan, h]

/-- Settles O3: an illegal word's plan is the error of code 7, and a busy engine looks at no plan. -/
theorem illegalWordIsRejectedOrRefused : Obligations.IllegalWordIsRejectedOrRefused := by
  intro s es a v hr ha he
  have hstep := step_of_word_write hr ha he
  refine ⟨fun hi hv => ?_, fun hb => ?_⟩
  · obtain ⟨e, hd⟩ := decode_illegal hv
    rw [hstep, wordPlan_illegal hd, submit_error (s := s.answered .okay 0) hi]
    rfl
  · rw [hstep, submit_busy (s := s.answered .okay 0) hb]
    rfl

/- ### The standard fixed input -/

/-- An entry of a list by its place in one of the pieces the list is cut into. -/
theorem getElem?_of_eq_append {α : Type} {l xs ys zs : List α} {n k : Nat} (hl : l = xs ++ (ys ++ zs))
    (hn : n = xs.length + k) (hk : k < ys.length) : l[n]? = some ys[k] := by
  rw [hl, hn, List.getElem?_append_right (by omega), Nat.add_sub_cancel_left, List.getElem?_append_left hk,
    List.getElem?_eq_getElem hk]

@[simp] theorem getElem_regionBytes (s : State) (p : Region) {k : Nat} (h : k < (s.regionBytes p).length) :
    (s.regionBytes p)[k] = s.ramByte (p.off.toNat + k) := State.getElem_memRead s _ _ k h

/-- The length field of F, which wraps at 65536 (R91, R163). -/
theorem bigEndian_two (v : Nat) : bigEndian 2 v = [BitVec.ofNat 8 (v % 65536 / 256), BitVec.ofNat 8 (v % 256)] := by
  have hhigh : BitVec.ofNat 8 (v / 256) = BitVec.ofNat 8 (v % 65536 / 256) := by
    apply BitVec.eq_of_toNat_eq
    simp only [BitVec.toNat_ofNat]
    omega
  have hlow : BitVec.ofNat 8 v = BitVec.ofNat 8 (v % 256) := BitVec.eq_of_toNat_eq (by simp)
  rw [← hhigh, ← hlow]
  simp [bigEndian, List.range_succ]

theorem length_fixedInput (s : State) :
    s.fixedInput.length = s.fixa.len.toNat + s.fixb.len.toNat + s.fixc.len.toNat + 3 := by
  simp [State.fixedInput]
  omega

/-- F as the pieces of R91's table. -/
theorem fixedInput_eq (s : State) : s.fixedInput = s.regionBytes s.fixa ++ ([0x00] ++ (s.regionBytes s.fixb
    ++ (s.regionBytes s.fixc ++ bigEndian 2 s.requestedBits))) := by
  simp only [State.fixedInput, List.append_assoc]

/-- Settles O18: each offset lies in one piece of F. -/
theorem fixedInputLayout : Obligations.FixedInputLayout := by
  intro s
  have hF := fixedInput_eq s
  have hFtail : s.fixedInput = (s.regionBytes s.fixa ++ [0x00] ++ s.regionBytes s.fixb ++ s.regionBytes s.fixc)
      ++ ([BitVec.ofNat 8 (8 * s.out.len.toNat % 65536 / 256), BitVec.ofNat 8 (8 * s.out.len.toNat % 256)] ++ []) := by
    rw [State.fixedInput, State.requestedBits, bigEndian_two, List.append_nil]
  refine ⟨length_fixedInput s, fun k hk => ?_, ?_, fun k hk => ?_, fun k hk => ?_, ?_, ?_⟩
  · rw [getElem?_of_eq_append (xs := []) (k := k) hF (by simp) (by simpa using hk), getElem_regionBytes]
  · exact getElem?_of_eq_append (ys := [0x00]) (k := 0) hF (by simp) (by simp)
  · rw [getElem?_of_eq_append (xs := s.regionBytes s.fixa ++ [0x00]) (ys := s.regionBytes s.fixb) (k := k)
      (by rw [hF, List.append_assoc]) (by simp) (by simpa using hk), getElem_regionBytes]
  · rw [getElem?_of_eq_append (xs := s.regionBytes s.fixa ++ [0x00] ++ s.regionBytes s.fixb) (ys := s.regionBytes s.fixc)
      (k := k) (by rw [hF, List.append_assoc, List.append_assoc]) (by simp; omega) (by simpa using hk), getElem_regionBytes]
  · exact getElem?_of_eq_append (k := 0) hFtail (by simp; omega) (by simp)
  · exact getElem?_of_eq_append (k := 1) hFtail (by simp; omega) (by simp)

/- ### The beats of the PRF port -/

/-- The message beats in order, the last one marked (R97). -/
theorem getElem?_messageBeats (alg : Byte) (msg : Bytes) (k : Nat) :
    (messageBeats alg msg)[k]? = (msg[k]?).map fun b => ⟨alg, .message, b, decide (k + 1 = msg.length)⟩ := by
  induction msg generalizing k with
  | nil => simp [messageBeats]
  | cons m ms ih =>
    cases k with
    | zero => cases ms <;> simp [messageBeats]
    | succ k => simp [messageBeats, ih]

/-- The response beats in order, the last one marked (R98). -/
theorem getElem?_responseBeats (d : Bytes) (k : Nat) :
    (responseBeats d)[k]? = (d[k]?).map fun b => ⟨b, decide (k + 1 = d.length)⟩ := by
  induction d generalizing k with
  | nil => simp [responseBeats]
  | cons b bs ih =>
    cases k with
    | zero => cases bs <;> simp [responseBeats]
    | succ k => simp [responseBeats, ih]

/-- Settles O22: the key beats are the first |key|, and the message beats come after them. -/
theorem requestBeatOrder : Obligations.RequestBeatOrder := by
  intro q
  refine ⟨length_requestBeats q, fun k hk => ?_, fun k _ => ?_⟩
  · rw [requestBeats, List.getElem?_append_left (by simpa using hk), List.getElem?_map]
  · rw [requestBeats, List.getElem?_append_right (by simp), List.length_map, Nat.add_sub_cancel_left,
      getElem?_messageBeats]

/-- Settles O24: the beats are those of the digest's bytes, entry by entry. -/
theorem responseBeatOrder : Obligations.ResponseBeatOrder := by
  intro d
  exact ⟨length_responseBeats d, fun k _ => getElem?_responseBeats d k⟩

/-- The PRF core reads a request back from all of its beats (R97). -/
theorem assembleRequest_requestBeats {q : PrfRequest} (hm : q.msg ≠ []) : assembleRequest (requestBeats q) = some q := by
  rcases List.eq_nil_or_concat' (requestBeats q) with h | ⟨init, b, h⟩
  · have hlen := congrArg List.length h
    have hpos := List.length_pos_iff.mpr hm
    simp only [length_requestBeats, List.length_nil] at hlen
    omega
  · obtain ⟨hlast, halg⟩ := last_of_requestBeats hm h
    have hl : (requestBeats q).getLast? = some b := List.getLast?_eq_some_iff.mpr ⟨init, h⟩
    simp [assembleRequest, hl, hlast, halg, beatBytes_requestBeats]

/-- Settles O23: only the last beat is marked, so beats that are read as a request leave none behind. -/
theorem requestSurvivesThePort : Obligations.RequestSurvivesThePort := by
  intro q hm
  refine ⟨assembleRequest_requestBeats hm, fun k hk => ?_⟩
  cases ha : assembleRequest ((requestBeats q).take k) with
  | none => rfl
  | some q' =>
    obtain ⟨hrest, -⟩ := assembleRequest_of_append hm (List.take_append_drop k _) ha
    exact absurd (List.drop_eq_nil_iff.mp hrest) (Nat.not_le.mpr hk)

/- ### The events of the PRF port -/

/-- A step performs its oldest event in the state that event has left. -/
theorem step_eq_perform_popped {s : State} {e : Event} {es : List Event} (h : s.events = e :: es) :
    step s = s.popped.perform e := by
  rw [step_of_event h, State.popped, h]
  rfl

/-- A step whose oldest event has nothing enabled only takes it off the list (log 9). -/
theorem step_of_not_enabled {s : State} {e : Event} {es : List Event} (h : s.events = e :: es)
    (hn : s.enabled e = false) (hf : ∀ b, e ≠ .foreignBeat b) : step s = .next s.popped := by
  have hn' : s.popped.enabled e = false := (enabled_congr (s := s) rfl rfl e).trans hn
  rw [step_eq_perform_popped h]
  exact (perform_of_not_enabled hn').resolve_right fun ⟨b, hb⟩ => hf b hb

theorem takeRequestBeat_of_cons {s : State} {b : ReqBeat} {bs : List ReqBeat} (h : s.port.req = b :: bs) :
    s.takeRequestBeat = { s with port := { s.port with req := bs, core := s.port.core ++ [b] } } := by
  simp only [State.takeRequestBeat, h]

theorem prfAnswer_of_some {s : State} {q : PrfRequest} (h : assembleRequest s.port.core = some q) :
    s.prfAnswer
      = { s with port := { s.port with core := [], rsp := responseBeats (prf s.build q.alg q.key q.msg) } } := by
  simp only [State.prfAnswer, h]

theorem takeResponseBeat_of_ready {s : State} {b : RspBeat} {bs : List RspBeat} (h : s.port.rsp = b :: bs)
    (hr : s.prfRspReady = true) : s.takeResponseBeat
      = { s with port := { s.port with rsp := bs, got := s.port.got ++ [b.byte], gotLast := b.last } } := by
  simp only [State.takeResponseBeat, h, hr, if_true]

theorem exists_req_of_prfReqValid {s : State} (h : s.prfReqValid = true) : ∃ b bs, s.port.req = b :: bs := by
  refine List.exists_cons_of_ne_nil fun hn => ?_
  simp [State.prfReqValid, hn] at h

theorem prfRspReady_eq_true {s : State} : s.prfRspReady = true ↔
    ∃ r, s.engine = .run r ∧ r.waiting = true ∧ s.port.req = [] ∧ s.port.gotLast = false := by
  cases he : s.engine with
  | idle => simp [State.prfRspReady, he]
  | run r => simp [State.prfRspReady, he, and_assoc]

/-- Settles O57: an enabled event of the port is its one rule, and one that is not enabled changes nothing. -/
theorem prfPortEvents : Obligations.PrfPortEvents := by
  intro s es
  refine ⟨fun he => ⟨fun hv => ?_, fun hv => ?_⟩, fun he => ⟨fun ha => ?_, fun q hq => ?_⟩,
    fun he => ⟨fun hn => ?_, fun b bs hb hr => ?_⟩, prfRspReady_eq_true⟩
  · exact step_of_not_enabled he hv (by simp)
  · obtain ⟨b, bs, hreq⟩ := exists_req_of_prfReqValid hv
    refine ⟨b, bs, hreq, by rw [State.prfReqBeat, hreq]; rfl, ?_⟩
    rw [step_eq_perform_popped he]
    exact congrArg _ (takeRequestBeat_of_cons (s := s.popped) hreq)
  · exact step_of_not_enabled he (by simp [State.enabled, ha]) (by simp)
  · rw [step_eq_perform_popped he]
    exact congrArg _ (prfAnswer_of_some (s := s.popped) hq)
  · refine step_of_not_enabled he ?_ (by simp)
    rcases hn with hn | hn <;> simp [State.enabled, hn]
  · rw [step_eq_perform_popped he]
    exact congrArg _ (takeResponseBeat_of_ready (s := s.popped) hb hr)

/-- Settles O25: the event is performed, and its performance is the refusal. -/
theorem contractBreachIsRefused : Obligations.ContractBreachIsRefused := by
  intro s b es he
  rw [step_of_event he]
  rfl

/- ### The pseudo-instruction fill -/

theorem Memory.storeBytes_append (m : Memory) (a : Nat) (u v : Bytes) :
    Memory.storeBytes (Memory.storeBytes m a u) (a + u.length) v = Memory.storeBytes m a (u ++ v) := by
  induction u generalizing m a with
  | nil => rfl
  | cons b u ih =>
    rw [List.length_cons, Nat.add_comm u.length 1, ← Nat.add_assoc]
    exact ih (Memory.store m a b) (a + 1)

/-- From every idle state of the build out of reset, the transactions `xs` run to their end, leave the bytes `v` at buffer offset
`b` on, and change nothing else but the answer on the bus. -/
def Stores (c : Config.Build) (xs : List Transaction) (b : Nat) (v : Bytes) : Prop :=
  ∀ (s : State) (es : List Event), s.build = c → s.rstN = true → s.status.busy = false → s.events = xs.map .bus ++ es →
    ∃ rsp, Host.Core.run core xs.length s
      = .next { s with ram := Memory.storeBytes s.ram b v, events := es, busRsp := rsp }

theorem stores_nil (c : Config.Build) (b : Nat) : Stores c [] b [] := by
  intro s es _ _ _ he
  refine ⟨s.busRsp, ?_⟩
  rw [show es = s.events from he.symm]
  rfl

theorem Stores.append {c : Config.Build} {xs ys : List Transaction} {b : Nat} {u v : Bytes} (hx : Stores c xs b u)
    (hy : Stores c ys (b + u.length) v) : Stores c (xs ++ ys) b (u ++ v) := by
  intro s es hc hr hi he
  obtain ⟨ans, h1⟩ := hx s (ys.map .bus ++ es) hc hr hi (by rw [he, List.map_append, List.append_assoc])
  obtain ⟨rsp, h2⟩ := hy { s with ram := Memory.storeBytes s.ram b u, events := ys.map .bus ++ es, busRsp := ans } es
    hc hr hi rfl
  refine ⟨rsp, ?_⟩
  rw [List.length_append, run_add _ h1, h2, Memory.storeBytes_append]

/-- One legal write of the buffer window (R55, R58). -/
theorem stores_write {c : Config.Build} {z : Size} {b : Nat} (hb : b + z.bytes ≤ c.opmemBytes) (hz : b % z.bytes = 0)
    (d : Word) : Stores c [.write (Build.address c (0x10000 + b)) z d] b (littleEndianBytes z.bytes d.toNat) := by
  rintro s es rfl hr hi he
  have ha := toNat_address s.build (buffer_offset_lt hb)
  refine ⟨some { resp := .okay, data := 0 }, ?_⟩
  rw [List.length_singleton, run_succ (step_of_buffer_write hr hi ⟨ha.trans (Nat.add_assoc _ _ _).symm, hb, hz⟩ he)]
  simp [Host.Core.run, State.memWrite, State.answered, he]

theorem stores_sbAt {c : Config.Build} {b : Nat} (hb : b + 1 ≤ c.opmemBytes) (v : Byte) :
    Stores c [sbAt c (0x10000 + b) v] b [v] := by
  have h := stores_write (z := .byte) hb (Nat.mod_one b) (v.setWidth 32)
  have hbyte : littleEndianBytes Size.byte.bytes (v.setWidth 32).toNat = [v] := by
    rw [BitVec.toNat_setWidth_of_le (by decide)]
    simp [littleEndianBytes, Size.bytes]
  rwa [hbyte] at h

theorem littleEndianValue_lt (v : Bytes) : littleEndianValue v < 256 ^ v.length := by
  induction v with
  | nil => simp [littleEndianValue]
  | cons b v ih =>
    have := b.isLt
    rw [littleEndianValue, List.length_cons, pow_succ]
    omega

/-- The bytes of a byte string's number are the byte string (R58). -/
theorem littleEndianBytes_value (v : Bytes) : littleEndianBytes v.length (littleEndianValue v) = v := by
  induction v with
  | nil => rfl
  | cons b v ih =>
    have hb := b.isLt
    have hhead : BitVec.ofNat 8 (b.toNat + 256 * littleEndianValue v) = b := by
      apply BitVec.eq_of_toNat_eq
      rw [BitVec.toNat_ofNat]
      omega
    have htail : (b.toNat + 256 * littleEndianValue v) / 256 = littleEndianValue v := by omega
    rw [List.length_cons, littleEndianBytes, littleEndianValue, hhead, htail, ih]

theorem stores_swAt {c : Config.Build} {b : Nat} {v : Bytes} (hv : v.length = 4) (hb : b + 4 ≤ c.opmemBytes)
    (h4 : b % 4 = 0) : Stores c [swAt c (0x10000 + b) (BitVec.ofNat 32 (littleEndianValue v))] b v := by
  have h := stores_write (z := .word) hb h4 (BitVec.ofNat 32 (littleEndianValue v))
  have hlt := littleEndianValue_lt v
  rw [hv] at hlt
  have hword : littleEndianBytes Size.word.bytes (BitVec.ofNat 32 (littleEndianValue v)).toNat = v := by
    rw [BitVec.toNat_ofNat, Nat.mod_eq_of_lt (show _ < 2 ^ 32 from hlt), show Size.word.bytes = v.length from hv.symm,
      littleEndianBytes_value]
  rwa [hword] at h

theorem fillBytes_cons (c : Config.Build) (b : Nat) (v : Byte) (vs : Bytes) :
    fillBytes c b (v :: vs) = sbAt c (0x10000 + b) v :: fillBytes c (b + 1) vs := by
  simp only [fillBytes, List.zipIdx_cons', List.map_cons, List.map_map]
  congr 1
  refine List.map_congr_left fun e _ => ?_
  show sbAt c (0x10000 + b + (e.2 + 1)) e.1 = _
  rw [show 0x10000 + b + (e.2 + 1) = 0x10000 + (b + 1) + e.2 by omega]

/-- `fill` at an unaligned offset, byte by byte (R101). -/
theorem stores_fillBytes {c : Config.Build} {b : Nat} {v : Bytes} (h : b + v.length ≤ c.opmemBytes) :
    Stores c (fillBytes c b v) b v := by
  induction v generalizing b with
  | nil => exact stores_nil c b
  | cons d v ih =>
    rw [List.length_cons] at h
    rw [fillBytes_cons]
    exact (stores_sbAt (by omega) d).append (ih (b := b + 1) (by omega))

/-- `fill` at an aligned offset, word by word and then byte by byte (R101). -/
theorem stores_fillWords {c : Config.Build} {b : Nat} {v : Bytes} (h : b + v.length ≤ c.opmemBytes) (h4 : b % 4 = 0) :
    Stores c (fillWords c b v) b v := by
  induction b, v using fillWords.induct with
  | case1 b h0 h1 h2 h3 rest ih =>
    simp only [List.length_cons] at h
    rw [fillWords]
    exact (stores_swAt (v := [h0, h1, h2, h3]) rfl (by omega) h4).append (ih (by omega) (by omega))
  | case2 b rest hrest =>
    rw [fillWords]
    · exact stores_fillBytes h
    · exact hrest

theorem stores_fill {c : Config.Build} {b : Nat} {v : Bytes} (h : b + v.length ≤ c.opmemBytes) :
    Stores c (Line.expand c (.fill b v)) b v := by
  rw [Line.expand]
  split
  · next h4 => exact stores_fillWords h h4
  · exact stores_fillBytes h

/-- Settles O55: the words and bytes of `fill` store its byte string piece by piece. -/
theorem fillWritesItsBytes : Obligations.FillWritesItsBytes := by
  intro s b bytes es hr hi hb he
  rw [hostEvents, List.flatMap_singleton] at he ⊢
  obtain ⟨rsp, hrun⟩ := stores_fill hb s es rfl hr hi he
  refine ⟨_, by rw [List.length_map]; exact hrun, rfl, fun k hk => ?_, fun x hx => ?_⟩
  · exact State.ramByte_inside (s := s) rfl hk
  · exact State.ramByte_outside (s := s) rfl hx

end Sys2Proof.Machine

/-! PROOF. The counter encoder (spec/40_counter_encoder.md): the bytes of `encode(w, i)` and the number they hold (R110, R112),
and ENCODE_COUNTER from its CMD write to its completion (R113). -/

namespace Sys2Proof.Machine

/- ### The counter field -/

/-- A byte below bit `m` of a number does not depend on the bits from `m` on. -/
theorem ofNat_mod_two_pow_div (i : Nat) {m e : Nat} (h : e + 8 ≤ m) :
    BitVec.ofNat 8 (i % 2 ^ m / 2 ^ e) = BitVec.ofNat 8 (i / 2 ^ e) := by
  have hm : 2 ^ m = 2 ^ e * 2 ^ (m - e) := by rw [← pow_add, Nat.add_sub_cancel' (by omega)]
  have hdvd : 2 ^ 8 ∣ 2 ^ (m - e) := pow_dvd_pow 2 (by omega)
  apply BitVec.eq_of_toNat_eq
  rw [BitVec.toNat_ofNat, BitVec.toNat_ofNat, hm, Nat.mod_mul_right_div_self, Nat.mod_mod_of_dvd _ hdvd]

/-- The bytes of the counter field are those of the counter itself, wrapped or not (R110). -/
theorem getElem_encodeCounterField (w : Width) (i k : Nat) (h : k < (encodeCounterField w i).length) :
    (encodeCounterField w i)[k] = BitVec.ofNat 8 (i / 2 ^ (w.bits - 8 - 8 * k)) := by
  have hk : k < w.bytes := by simpa using h
  have hw := w.bits_eq
  have hexp : 8 * (w.bytes - 1 - k) = w.bits - 8 - 8 * k := by omega
  simp only [encodeCounterField, getElem_bigEndian]
  rw [hexp, ofNat_mod_two_pow_div i (by omega)]

/-- Settles O16: the length is the width's, and each byte is read off the counter. -/
theorem counterFieldBytes : Obligations.CounterFieldBytes := by
  intro w i
  have hbytes : w.bits / 8 = w.bytes := by rw [w.bits_eq, Nat.mul_div_cancel_left _ (by decide)]
  rw [hbytes]
  refine ⟨length_encodeCounterField w i, fun k hk => ?_⟩
  rw [List.getElem?_eq_getElem (by simpa using hk), getElem_encodeCounterField, Option.map_some, BitVec.toNat_ofNat]

/-- The number that a byte string holds, most significant byte first (R14). -/
def bigEndianValue (v : Bytes) : Nat := v.foldl (fun x b => 256 * x + b.toNat) 0

theorem bigEndianValue_concat (v : Bytes) (b : Byte) : bigEndianValue (v ++ [b]) = 256 * bigEndianValue v + b.toNat := by
  simp [bigEndianValue]

theorem bigEndian_succ (n v : Nat) : bigEndian (n + 1) v = bigEndian n (v / 256) ++ [BitVec.ofNat 8 v] := by
  have hinit : ∀ k ∈ List.range n,
      BitVec.ofNat 8 (v / 2 ^ (8 * (n + 1 - 1 - k))) = BitVec.ofNat 8 (v / 256 / 2 ^ (8 * (n - 1 - k))) := by
    intro k hk
    have hexp : 8 * (n + 1 - 1 - k) = 8 + 8 * (n - 1 - k) := by have := List.mem_range.mp hk; omega
    rw [hexp, pow_add, ← Nat.div_div_eq_div_mul, show 2 ^ 8 = 256 from rfl]
  rw [bigEndian, List.range_succ, List.map_append, List.map_congr_left hinit]
  simp [bigEndian]

/-- `be(N, v)` holds `v mod 2^(8N)` (R14). -/
theorem bigEndianValue_bigEndian (n v : Nat) : bigEndianValue (bigEndian n v) = v % 256 ^ n := by
  induction n generalizing v with
  | zero => simp [bigEndian, bigEndianValue, Nat.mod_one]
  | succ n ih =>
    have hlast : (BitVec.ofNat 8 v).toNat = v % 256 := BitVec.toNat_ofNat v 8
    rw [bigEndian_succ, bigEndianValue_concat, ih, hlast, pow_succ', Nat.mod_mul, Nat.add_comm]

theorem Width.two_pow_bits (w : Width) : 2 ^ w.bits = 256 ^ w.bytes := by rw [w.bits_eq, pow_mul, show 2 ^ 8 = 256 from rfl]

theorem bigEndianValue_encodeCounterField (w : Width) (i : Nat) :
    bigEndianValue (encodeCounterField w i) = i % 2 ^ w.bits := by
  rw [encodeCounterField, bigEndianValue_bigEndian, ← w.two_pow_bits, Nat.mod_mod]

/-- Two counters have the same field exactly when they agree modulo `2^w` (R110). -/
theorem encodeCounterField_inj {w : Width} {i j : Nat} :
    encodeCounterField w i = encodeCounterField w j ↔ i % 2 ^ w.bits = j % 2 ^ w.bits := by
  constructor
  · intro h
    rw [← bigEndianValue_encodeCounterField, ← bigEndianValue_encodeCounterField, h]
  · intro h
    rw [encodeCounterField, encodeCounterField, h]

@[simp] theorem encodeCounterField_zero (w : Width) : encodeCounterField w 0 = List.replicate w.bytes 0 := by
  cases w <;> rfl

/-- Settles O17: the field holds the counter modulo `2^w`, which is the counter; all zeros is the field of 0. -/
theorem counterFieldIsExactInRange : Obligations.CounterFieldIsExactInRange := by
  intro w i j hi hiw hj hjw
  have himod : i % 2 ^ w.bits = i := Nat.mod_eq_of_lt (by omega)
  have hjmod : j % 2 ^ w.bits = j := Nat.mod_eq_of_lt (by omega)
  refine ⟨(bigEndianValue_encodeCounterField w i).trans himod, fun hzero => ?_, fun heq => ?_⟩
  · rw [← encodeCounterField_zero, encodeCounterField_inj, himod, Nat.zero_mod] at hzero
    omega
  · rwa [encodeCounterField_inj, himod, hjmod] at heq

/- ### ENCODE_COUNTER -/

/-- The Run record of an accepted ENCODE_COUNTER (R113). -/
def encodeCounterRun (s : State) (w : Width) : Run :=
  { op := .encodeCounter, alg := s.algId, key := [], pre := encodeCounterField w s.nIter, post := [], w := w, n := 0,
    outOff := s.out.off, outLen := BitVec.ofNat 32 w.bytes, i := 1, waiting := false, acc := [] }

/-- ENCODE_COUNTER whose two checks pass is given its Run record (R113). -/
theorem encodeCounterPlan_of_passes {s : State} {w : Width} (hw : s.ctrWidth.toNat = w.bits)
    (hb : s.out.off.toNat + w.bytes ≤ s.build.opmemBytes) : encodeCounterPlan s = .ok (encodeCounterRun s w) := by
  simp only [encodeCounterPlan, Width.ofField?_eq_some.mpr hw]
  rw [if_neg (Nat.not_lt.mpr hb), encodeCounterRun]

/-- The acceptance of ENCODE_COUNTER changes STATUS and the engine alone (R113). -/
theorem accept_encodeCounterRun (s : State) (w : Width) :
    s.accept (encodeCounterRun s w) = { s with status := s.busyStatus, engine := .run (encodeCounterRun s w) } := rfl

/-- The engine's event is Complete when no iteration is left (R130). -/
theorem step_of_engine_complete {s : State} {r : Run} {es : List Event} (h : s.events = .engine :: es)
    (he : s.engine = .run r) (hw : r.waiting = false) (hi : r.n < r.i) : step s = .next (s.popped.complete r) := by
  have hmove : s.popped.engineStep = s.popped.complete r := by
    simp only [State.engineStep, show s.popped.engine = .run r from he, hw]
    rw [if_neg Bool.false_ne_true, if_neg (Nat.not_le.mpr hi)]
  rw [step_eq_perform_popped h, State.perform, hmove]

/-- Settles O9: the command is accepted, and Complete stores the counter field, the record's `pre`, at OUT_OFF. -/
theorem encodeCounterRuns : Obligations.EncodeCounterRuns := by
  intro s w hidle hw hb
  have hexec : exec .encodeCounter s = .next (s.accept (encodeCounterRun s w)) := by
    rw [exec_eq_submit, commandPlan, encodeCounterPlan_of_passes hw hb, submit_ok hidle]
  refine ⟨_, hexec, accept_encodeCounterRun s w, _,
    step_of_engine_complete (r := encodeCounterRun s w) rfl rfl rfl Nat.zero_lt_one, rfl, rfl, rfl, fun k hk => ?_,
    fun a ha => ?_⟩
  · have hk' : k < (encodeCounterField w s.nIter).length := by simpa using hk
    rw [← getElem_encodeCounterField w s.nIter k hk']
    exact State.ramByte_inside (s := s) rfl hk'
  · exact State.ramByte_outside (s := s) (off := s.out.off.toNat) (v := encodeCounterField w s.nIter) rfl (by simpa using ha)

end Sys2Proof.Machine

/-! PROOF. The derivation engine (spec/41_derivation_engine.md): which commands the CMD write accepts and rejects (R120 to R128,
R137 to R142, R162 to R167), what it leaves alone (R185, R189), the engine's steps (R130, R134) and the output (R133). -/

namespace Sys2Proof.Machine

/- ### The CMD write of a derivation -/

/-- A derivation that passes its checks is accepted with its Run record (R128). -/
theorem exec_of_passes {s : State} {i : Instr} {h : Nat} {w : Width} {iterations : Nat → Nat} {inputs : List Region}
    {pre post : Bytes} (hplan : commandPlan s i = derivationPlan s i iterations inputs pre post)
    (hidle : s.status.busy = false) (hp : s.Passes h w (iterations h) inputs) :
    exec i s = .next (s.accept (derivationRun s i w (iterations h) pre post)) := by
  rw [exec_eq_submit, hplan, derivationPlan_of_passes hp, submit_ok hidle]

/-- A derivation some check of which fails is rejected with the first one's code, and nothing else changes (R183, R185). -/
theorem exec_of_firstFailure {s : State} {i : Instr} {c : BitVec 4} {iterations : Nat → Nat} {inputs : List Region}
    {pre post : Bytes} (hplan : commandPlan s i = derivationPlan s i iterations inputs pre post)
    (hidle : s.status.busy = false) (hf : s.FirstFailure iterations inputs c) : exec i s = .next (s.rejectedWith c) := by
  obtain ⟨e, rfl, he⟩ := derivationPlan_of_failure hf i pre post
  rw [exec_eq_submit, hplan, he, submit_error hidle]
  rfl

/-- The three DERIVE commands take `n` from N_ITER and differ in their message parts (R137 to R139). -/
theorem commandPlan_of_isDerive (s : State) {i : Instr} (hi : isDerive i = true) :
    ∃ pre post, commandPlan s i = derivationPlan s i (fun _ => s.nIter) (s.inputRegions i) pre post := by
  cases i with
  | deriveBefore => exact ⟨_, _, rfl⟩
  | deriveAfter => exact ⟨_, _, rfl⟩
  | deriveMiddle => exact ⟨_, _, rfl⟩
  | counterKdf => cases hi
  | encodeCounter => cases hi

/-- N_USED_LO takes the low half of N (R32, R38). -/
theorem ofNat_nIter (s : State) : BitVec.ofNat 32 s.nIter = s.nIterLo :=
  BitVec.eq_of_toNat_eq (by simpa [State.nIter] using s.nIterLo.isLt)

/-- N_USED_HI takes the high half of N (R32, R38). -/
theorem ofNat_nIter_div (s : State) : BitVec.ofNat 32 (s.nIter / 2 ^ 32) = s.nIterHi := by
  have hlo := s.nIterLo.isLt
  have hdiv : s.nIter / 2 ^ 32 = s.nIterHi.toNat := by simp only [State.nIter]; omega
  rw [hdiv, BitVec.ofNat_toNat, BitVec.setWidth_eq]

/-- A DERIVE command that passes its checks is accepted with `n = N` (R128, R131). -/
theorem exec_derive_of_passes {s : State} {i : Instr} {h : Nat} {w : Width} {inputs : List Region} {pre post : Bytes}
    (hi : isDerive i = true) (hplan : commandPlan s i = derivationPlan s i (fun _ => s.nIter) inputs pre post)
    (hidle : s.status.busy = false) (hp : s.Passes h w s.nIter inputs) :
    exec i s = .next
      { s with
        status := s.busyStatus, nUsedLo := s.nIterLo, nUsedHi := s.nIterHi
        engine := .run (derivationRun s i w s.nIter pre post) } := by
  have hop : i ≠ .encodeCounter := by rintro rfl; cases hi
  rw [exec_of_passes hplan hidle hp, State.accept, derivationRun, if_neg hop, if_neg hop, ofNat_nIter, ofNat_nIter_div]
  rfl

/-- Settles O5: the plan is a derivation over KEY and FIXA with FIXA after the counter. -/
theorem deriveBeforeIsAccepted : Obligations.DeriveBeforeIsAccepted :=
  fun _ _ _ hidle hp => exec_derive_of_passes rfl rfl hidle hp

/-- Settles O6: the plan is a derivation over KEY and FIXA with FIXA before the counter. -/
theorem deriveAfterIsAccepted : Obligations.DeriveAfterIsAccepted :=
  fun _ _ _ hidle hp => exec_derive_of_passes rfl rfl hidle hp

/-- Settles O7: the plan is a derivation over KEY, FIXA and FIXB with the counter between FIXA and FIXB. -/
theorem deriveMiddleIsAccepted : Obligations.DeriveMiddleIsAccepted :=
  fun _ _ _ hidle hp => exec_derive_of_passes rfl rfl hidle hp

/-- The computed count covers the output, so the check of code 4 never fails for COUNTER_KDF (R162, R166). -/
theorem outLen_le_assemblerCount {b : Config.Build} {alg : Byte} {h : Nat} (hreg : registry b alg = some h) (len : Nat) :
    len ≤ assemblerCount (8 * len) h * (h / 8) := by
  obtain ⟨d, hd, rfl, -⟩ := registry_spec hreg
  have hceil := Nat.lt_mul_div_succ (8 * len + 8 * d - 1) (Nat.mul_pos (by decide : 0 < 8) hd)
  rw [assemblerCount, Nat.mul_div_cancel_left d (by decide), Nat.mul_comm]
  rw [Nat.mul_succ, Nat.mul_assoc] at hceil
  omega

/-- Settles O8: the computed `n` passes the check of code 4 by itself, and F's length field is the two bytes of `l` mod 65536. -/
theorem counterKdfIsAccepted : Obligations.CounterKdfIsAccepted := by
  intro s h w hidle hreg hw hcount hbounds hdisjoint
  have hp : s.Passes h w (assemblerCount s.requestedBits h) [s.key, s.fixa, s.fixb, s.fixc] :=
    { registered := hreg
      width := hw
      count := hcount
      outLen := outLen_le_assemblerCount hreg _
      bounds := fun p hm => hbounds p (List.perm_append_singleton s.out _ |>.mem_iff.mpr hm)
      disjoint := hdisjoint }
  rw [exec_of_passes (i := .counterKdf) (post := s.fixedInput) rfl hidle hp, State.fixedInput, bigEndian_two]
  rfl

/-- Settles O10: each command's plan is the checks in the order of R183, which stop at the first failure. -/
theorem firstFailingCheckIsReported : Obligations.FirstFailingCheckIsReported := by
  intro s hidle
  refine ⟨fun i c hi hf => ?_, fun c hf => exec_of_firstFailure (i := .counterKdf) rfl hidle hf, fun hw => ?_,
    fun w hw hb => ?_⟩
  · obtain ⟨pre, post, hplan⟩ := commandPlan_of_isDerive s hi
    exact exec_of_firstFailure hplan hidle hf
  · have hplan : encodeCounterPlan s = .error .unsupportedCounterWidth := by
      simp only [encodeCounterPlan, Width.ofField?_eq_none.mpr hw]
    rw [exec_eq_submit, commandPlan, hplan, submit_error hidle]
    rfl
  · have hplan : encodeCounterPlan s = .error .regionOutOfBounds := by
      simp only [encodeCounterPlan, Width.ofField?_eq_some.mpr hw, if_pos hb]
    rw [exec_eq_submit, commandPlan, hplan, submit_error hidle]
    rfl

theorem Width.bits_mem (w : Width) : w.bits ∈ [8, 16, 24, 32] := by cases w <;> decide

/-- Settles O12: `2 ^ w - 1` passes the check of code 3, and `2 ^ w` fails it after the checks of codes 1 and 2 have passed. -/
theorem counterBoundary : Obligations.CounterBoundary := by
  intro s i h w hidle hi hreg hw hlen hbounds hdisjoint
  obtain ⟨pre, post, hplan⟩ := commandPlan_of_isDerive s hi
  refine ⟨fun hn => ?_, fun hn => ?_, fun hhi hlo => ?_⟩
  · have hp : s.Passes h w s.nIter (s.inputRegions i) := ⟨hreg, hw, hn.le, hlen, hbounds, hdisjoint⟩
    exact ⟨_, _, exec_derive_of_passes hi hplan hidle hp, rfl, rfl, hn⟩
  · refine exec_of_firstFailure hplan hidle (.inr ⟨h, hreg, .inr ⟨hw ▸ w.bits_mem, .inl ⟨?_, rfl⟩⟩⟩)
    rw [hw, hn]
    exact Nat.sub_lt (Nat.two_pow_pos _) Nat.one_pos
  · rw [State.nIter, hhi, hlo]
    rfl

/- ### The engine's steps -/

theorem engineMove_of_idle {s : State} (he : s.engine = .idle) : s.engineMove = none := by
  simp only [State.engineMove, he]

theorem engineMove_of_response_pending {s : State} {r : Run} (he : s.engine = .run r) (hw : r.waiting = true)
    (hl : s.port.gotLast = false) : s.engineMove = none := by
  simp [State.engineMove, he, hw, hl]

/-- The engine's event is Issue between iterations while one is left (R130). -/
theorem step_of_engine_issue {s : State} {r : Run} {es : List Event} (h : s.events = .engine :: es)
    (he : s.engine = .run r) (hw : r.waiting = false) (hi : r.i ≤ r.n) : step s = .next (s.popped.issue r) := by
  have hmove : s.popped.engineStep = s.popped.issue r := by
    simp [State.engineStep, show s.popped.engine = .run r from he, hw, hi]
  rw [step_eq_perform_popped h, State.perform, hmove]

/-- The engine's event is Receive once the response is in (R130). -/
theorem step_of_engine_receive {s : State} {r : Run} {es : List Event} (h : s.events = .engine :: es)
    (he : s.engine = .run r) (hw : r.waiting = true) (hl : s.port.gotLast = true) :
    step s = .next (s.popped.receive r) := by
  have hmove : s.popped.engineStep = s.popped.receive r := by
    simp [State.engineStep, show s.popped.engine = .run r from he, hw, show s.popped.port.gotLast = true from hl]
  rw [step_eq_perform_popped h, State.perform, hmove]

/-- Settles O26: the table of R130, a line for each state of the engine. -/
theorem engineStepTable : Obligations.EngineStepTable := by
  intro s es h
  have stays (hm : s.engineMove = none) : step s = .next s.popped :=
    step_of_not_enabled h (by rw [State.enabled, hm]; rfl) fun _ => Event.noConfusion
  exact ⟨fun he => stays (engineMove_of_idle he), fun r he =>
    ⟨step_of_engine_issue h he, step_of_engine_receive h he,
      fun hw hl => stays (engineMove_of_response_pending he hw hl)⟩⟩

/-- Settles O27: the step is Complete, whose result is stored at out_off. -/
theorem completeWritesTheResult : Obligations.CompleteWritesTheResult := by
  intro s es r result h he hw hi hencode hderive
  have hresult : r.result = result := by
    by_cases hop : r.op = .encodeCounter
    · rw [Run.result, if_pos hop, hencode hop]
    · rw [Run.result, if_neg hop, hderive hop]
  subst hresult
  exact ⟨_, step_of_engine_complete h he hw hi, rfl, fun k hk => State.ramByte_inside (s := s) rfl hk,
    fun a ha => State.ramByte_outside (s := s) (off := r.outOff.toNat) (v := r.result) rfl ha⟩

/-- Settles O13: `n = 0` leaves the first engine step nothing but Complete, and 0 bytes are all that 0 digests cover. -/
theorem zeroIterations : Obligations.ZeroIterations := by
  intro s i h w hidle hi hreg hw hn hbounds
  obtain ⟨pre, post, hplan⟩ := commandPlan_of_isDerive s hi
  refine ⟨fun hlen => ?_, fun hlen => ?_⟩
  · have hp : s.Passes h w s.nIter (s.inputRegions i) :=
      { registered := hreg, width := hw, bounds := hbounds
        count := by rw [hn]; exact Nat.zero_le _
        outLen := by rw [hlen]; exact Nat.zero_le _
        disjoint := fun p _ hx => absurd hlen hx.1.ne' }
    have hlo : s.nIterLo = 0 := by rw [← ofNat_nIter, hn]; rfl
    have hhi : s.nIterHi = 0 := by rw [← ofNat_nIter_div, hn]; rfl
    have hop : i ≠ .encodeCounter := by rintro rfl; cases hi
    have hresult : (derivationRun s i w s.nIter pre post).result = [] := by
      rw [Run.result, derivationRun, if_neg hop, List.take_nil]
    refine ⟨_, _, exec_derive_of_passes hi hplan hidle hp, rfl, hlo, hhi,
      step_of_engine_complete (r := derivationRun s i w s.nIter pre post) rfl rfl rfl (by simp [derivationRun, hn]),
      rfl, rfl, rfl, hlo, hhi, rfl, ?_⟩
    rw [State.complete_ram, hresult]
    rfl
  · refine exec_of_firstFailure hplan hidle
      (.inr ⟨h, hreg, .inr ⟨hw ▸ w.bits_mem, .inr ⟨?_, .inl ⟨?_, rfl⟩⟩⟩⟩)
    · rw [hn]; exact Nat.zero_le _
    · rwa [hn, Nat.zero_mul]

/-- A submission touches STATUS, N_USED and the engine alone (R128, R185, R189). -/
theorem submit_sameInputs (s : State) (p : Except ErrCode Run) : s.SameInputs (s.submit p) := by
  rcases submit_cases s p with ⟨_, ht⟩ | ⟨_, c, _, ht⟩ | ⟨_, r, _, ht⟩ <;> rw [ht] <;> constructor <;> intros <;> rfl

/-- Settles O14: a command is refused, rejected or accepted, and each of these names all it changes. -/
theorem commandFrame : Obligations.CommandFrame := by
  intro i s
  refine ⟨_, exec_eq_submit i s, submit_sameInputs s _, ?_⟩
  rcases submit_cases s (commandPlan s i) with ⟨hb, ht⟩ | ⟨hb, c, -, ht⟩ | ⟨hb, r, hp, ht⟩ <;> rw [ht, hb]
  · exact ⟨fun _ => ⟨rfl, rfl, rfl, rfl⟩, nofun, fun _ => ⟨rfl, rfl⟩⟩
  · exact ⟨nofun, fun _ => ⟨rfl, rfl, .inl ⟨hb, rfl, rfl, rfl, rfl⟩⟩, fun _ => ⟨rfl, rfl⟩⟩
  · obtain rfl := op_of_plan hp
    exact ⟨nofun, fun _ => ⟨rfl, rfl, .inr ⟨rfl, rfl, rfl, r, rfl, rfl⟩⟩, fun hop => ⟨if_pos hop, if_pos hop⟩⟩

/- ### The output -/

/-- Byte `k` of `d_1 ‖ ... ‖ d_m` is byte `k mod D` of `d_{(k div D) + 1}` (R133). -/
theorem getElem?_accumulated (b : Config.Build) (r : Run) {m k : Nat} (hk : k < m * digestBytes b r.alg) :
    (r.accumulated b m)[k]? = (r.digest b (k / digestBytes b r.alg + 1))[k % digestBytes b r.alg]? := by
  induction m with
  | zero => omega
  | succ m ih =>
    rw [accumulated_succ]
    by_cases hlt : k < m * digestBytes b r.alg
    · rw [List.getElem?_append_left (by simpa using hlt), ih hlt]
    · have hle := Nat.not_lt.mp hlt
      have hdiv : k / digestBytes b r.alg = m := Nat.div_eq_of_lt_le hle hk
      rw [List.getElem?_append_right (by simpa using hle), length_accumulated, hdiv, Nat.mod_eq_sub_mul_div, hdiv,
        Nat.mul_comm]

/-- Settles O28: the output is the first out_len bytes of the accumulated digests, which are at least as many. -/
theorem outputByteK : Obligations.OutputByteK := by
  intro b r hop _ hlen
  rw [Run.output, if_neg hop]
  refine ⟨by simpa using hlen, fun k hk => ?_⟩
  rw [List.getElem?_take_of_lt hk, getElem?_accumulated b r (hk.trans_le hlen)]

/-- Of the engine's steps only Complete raises DONE (R25). -/
theorem EngineEffect.complete_of_done_rises {s t : State} (ht : EngineEffect s t) (h0 : s.status.done = false)
    (h1 : t.status.done = true) : ∃ r, s.engine = .run r ∧ r.n < r.i ∧ t = s.complete r := by
  have kept {P : Prop} (hst : t.status = s.status) : P := by
    rw [hst, h0] at h1
    cases h1
  cases ht with
  | none => exact kept rfl
  | issue => exact kept rfl
  | receive => exact kept rfl
  | complete r he _ hi => exact ⟨r, he, hi, rfl⟩

/-- Of all steps only Complete raises DONE (R25). -/
theorem complete_of_done_rises {s t : State} (h0 : s.status.done = false) (h : step s = .next t)
    (h1 : t.status.done = true) : ∃ r, s.engine = .run r ∧ r.n < r.i ∧ t = s.popped.complete r := by
  cases step_control h with
  | completed r es hev =>
    rw [step_eq_perform_popped hev] at h
    cases h
    exact (engineStep_effect s.popped).complete_of_done_rises h0 h1
  | unchanged hst => rw [hst, h0] at h1; cases h1
  | refused x es _ _ hst => rw [hst, Status.refused, h0] at h1; cases h1
  | cleared a v es _ _ hst => rw [hst, Status.cleared, h0] at h1; cases h1
  | rejected c _ hst => rw [hst] at h1; cases h1
  | accepted a v r es _ _ _ _ hst => rw [hst] at h1; cases h1
  | reset es _ hst => rw [hst] at h1; cases h1

/-- Settles O29: the step is Complete, and in the invariant what Complete writes is the output. -/
theorem doneMeansTheRightOutput : Obligations.DoneMeansTheRightOutput := by
  intro s t hs h0 h h1
  obtain ⟨r, he, hi, rfl⟩ := complete_of_done_rises h0 h h1
  obtain ⟨hout, hlen⟩ := result_eq_output (hs.run r he) hi
  refine ⟨r, he, rfl, rfl, hout ▸ hlen, fun k hk => ?_, fun a ha => ?_⟩
  · rw [← hlen] at hk
    rw [← hout, List.getElem?_eq_getElem hk, State.ramByte_inside (s := s) rfl hk]
  · exact State.ramByte_outside (s := s) (off := r.outOff.toNat) (v := r.result) rfl (by rwa [hlen])

end Sys2Proof.Machine

/-! PROOF. The fixed-input assembler (spec/42_fixed_input_assembler.md): the computed iteration count is the ceiling (R162), so
COUNTER_KDF is never rejected with code 4 (R166), and its requests and output are those of DERIVE_BEFORE over F (R168). -/

namespace Sys2Proof.Machine

/- ### The iteration count -/

/-- Bits or bytes, the count is the ceiling, because h is a multiple of 8 (R162). -/
theorem assemblerCount_eq_ceilDiv {b : Config.Build} {alg : Byte} {h : Nat} (hreg : registry b alg = some h) (len : Nat) :
    assemblerCount (8 * len) h = len ⌈/⌉ digestBytes b alg := by
  obtain ⟨d, hd, rfl, hbytes⟩ := registry_spec hreg
  have hbits : (8 * len + 8 * d - 1) / 8 = len + d - 1 := by omega
  rw [assemblerCount, ← Nat.div_div_eq_div_mul, hbits, hbytes, Nat.ceilDiv_eq_add_pred_div]

/-- The count is enough iterations for the output, and the least (R162). -/
theorem assemblerCount_le_iff {b : Config.Build} {alg : Byte} {h len m : Nat} (hreg : registry b alg = some h) :
    assemblerCount (8 * len) h ≤ m ↔ len ≤ m * digestBytes b alg := by
  obtain ⟨d, hd, -, hbytes⟩ := registry_spec hreg
  rw [assemblerCount_eq_ceilDiv hreg, ceilDiv_le_iff_le_mul (hbytes ▸ hd), Nat.mul_comm]

/-- Settles O19: the count is the ceiling of len / D, the least m with `len ≤ m · D`. -/
theorem assemblerCountIsCeiling : Obligations.AssemblerCountIsCeiling := by
  intro b alg h len hreg
  refine ⟨rfl, ?_, (assemblerCount_le_iff hreg).mp le_rfl, fun m => (assemblerCount_le_iff hreg).mpr⟩
  rw [assemblerCount_eq_ceilDiv hreg, Nat.ceilDiv_eq_add_pred_div]

/- ### Code 4 -/

/-- A derivation is rejected with code 4 only when the digests do not cover OUT_LEN (R125). -/
theorem uncovered_of_derivationPlan {s : State} {op : Instr} {iterations : Nat → Nat} {inputs : List Region}
    {pre post : Bytes} (hp : derivationPlan s op iterations inputs pre post = .error .outputExceedsAccumulator) :
    ∃ h, registry s.build s.algId = some h ∧ iterations h * (h / 8) < s.out.len.toNat := by
  simp only [derivationPlan] at hp
  split at hp
  · cases hp
  next h hreg =>
  split at hp
  · cases hp
  split at hp
  · cases hp
  split at hp
  · next huncovered => exact ⟨h, hreg, huncovered⟩
  split at hp
  · cases hp
  split at hp <;> cases hp

/-- COUNTER_KDF passes the check of code 4, since its own count covers OUT_LEN (R166). -/
theorem counterKdfPlan_ne_outputExceedsAccumulator (s : State) : counterKdfPlan s ≠ .error .outputExceedsAccumulator := by
  intro hp
  obtain ⟨h, hreg, huncovered⟩ := uncovered_of_derivationPlan hp
  exact absurd (outLen_le_assemblerCount hreg _) (Nat.not_le.mpr huncovered)

theorem ErrCode.code_eq_four {c : ErrCode} : c.code = 4 ↔ c = .outputExceedsAccumulator := by cases c <;> decide

/-- Settles O11: an acceptance clears ERR_CODE, and a rejection records the code of the plan's error, which is not 4. -/
theorem counterKdfNeverCode4 : Obligations.CounterKdfNeverCode4 := by
  intro s hidle
  refine ⟨⟨_, exec_eq_submit .counterKdf s, ?_⟩, fun h hreg => outLen_le_assemblerCount hreg _⟩
  cases hp : commandPlan s .counterKdf with
  | error c =>
    rw [submit_error hidle]
    intro hcode
    rw [ErrCode.code_eq_four.mp hcode] at hp
    exact counterKdfPlan_ne_outputExceedsAccumulator s hp
  | ok r => rw [submit_ok hidle]; exact (by decide : (0 : BitVec 4) ≠ 4)

/- ### COUNTER_KDF as DERIVE_BEFORE over F -/

/-- Two records of the same derivation, of whatever command and with whatever output offset: what the requests and the
output are functions of is the same (R131 to R133). -/
def Run.SameDerivation (p q : Run) : Prop := q = { p with op := q.op, outOff := q.outOff }

theorem Run.SameDerivation.n_eq {p q : Run} (h : p.SameDerivation q) : p.n = q.n := by rw [h]

theorem Run.SameDerivation.request_eq {p q : Run} (h : p.SameDerivation q) (i : Nat) : p.request i = q.request i := by
  rw [h]; rfl

/-- The output of a derivation depends on its command only in that it is not ENCODE_COUNTER (R133). -/
theorem Run.SameDerivation.output_eq {p q : Run} (h : p.SameDerivation q) (hp : p.op ≠ .encodeCounter)
    (hq : q.op ≠ .encodeCounter) (b : Config.Build) : p.output b = q.output b := by
  rw [Run.output, Run.output, if_neg hp, if_neg hq, h]
  rfl

/-- From two states that agree on alg, key bytes and OUT_LEN, two derivations with the same width, count and message parts
have the same derivation in their records (R128). -/
theorem derivationRun_sameDerivation {s t : State} (halg : t.algId = s.algId)
    (hkey : t.regionBytes t.key = s.regionBytes s.key) (hlen : t.out.len = s.out.len) (i j : Instr) (w : Width) (n : Nat)
    (pre post : Bytes) : (derivationRun s i w n pre post).SameDerivation (derivationRun t j w n pre post) := by
  simp only [Run.SameDerivation, derivationRun, halg, hkey, hlen]

/-- Settles O20: both commands are accepted, and their records differ in the command and the output offset alone. -/
theorem counterKdfIsDeriveBefore : Obligations.CounterKdfIsDeriveBefore := by
  intro s t h w hs ht hps hpt _ halg hkey hlen hfixa hn
  have hrun := derivationRun_sameDerivation halg hkey hlen .counterKdf .deriveBefore w
    (assemblerCount s.requestedBits h) [] s.fixedInput
  have hafter : exec .deriveBefore t
      = .next (t.accept (derivationRun t .deriveBefore w (assemblerCount s.requestedBits h) [] s.fixedInput)) := by
    have hexec := exec_of_passes (i := .deriveBefore) (iterations := fun _ => t.nIter) rfl ht hpt
    rwa [hfixa, hn] at hexec
  exact ⟨_, _, _, _, exec_of_passes (i := .counterKdf) (iterations := assemblerCount s.requestedBits) rfl hs hps, hafter,
    rfl, rfl, hrun.n_eq, hrun.request_eq, hrun.output_eq nofun nofun s.build⟩

end Sys2Proof.Machine

/-! PROOF. The exceptions while busy (spec/60_exceptions.md): no step raises an error after acceptance (R182), and which accesses
are refused and which are not (R189). -/

namespace Sys2Proof.Machine

/- ### Errors while busy -/

/-- A STATUS write at most clears ERR and ERR_CODE (R27, R187). -/
theorem Status.err_of_cleared {f : Status} {v : Word} (h : (f.cleared v).err = true) : f.err = true := by
  rw [Status.cleared, Bool.and_eq_true] at h
  exact h.1

theorem Status.errCode_cleared_of_ne_zero {f : Status} {v : Word} (h : (f.cleared v).errCode ≠ 0) :
    (f.cleared v).errCode = f.errCode := by
  simp only [Status.cleared] at h ⊢
  split at h
  · exact absurd rfl h
  · next hv => rw [if_neg hv]

/-- Settles O40: while busy no CMD write is rejected or accepted, and nothing else a step can do sets ERR or a code. -/
theorem noErrorAfterAcceptance : Obligations.NoErrorAfterAcceptance := by
  intro s t hb h
  cases step_control h with
  | unchanged hst => rw [hst]; exact ⟨id, fun _ => rfl⟩
  | refused x es _ _ hst => rw [hst]; exact ⟨id, fun _ => rfl⟩
  | cleared a v es _ _ hst => rw [hst]; exact ⟨Status.err_of_cleared, Status.errCode_cleared_of_ne_zero⟩
  | rejected c hidle => rw [hb] at hidle; cases hidle
  | accepted a v r es _ _ _ hidle => rw [hb] at hidle; cases hidle
  | completed r es _ _ hst => rw [hst]; exact ⟨id, fun _ => rfl⟩
  | reset es _ hst => rw [hst]; exact ⟨nofun, absurd rfl⟩

/- ### Accesses while busy -/

/-- A write of an operand register while busy is refused (R46, R189). -/
theorem writeCsr_operand_busy {s : State} (hb : s.status.busy = true) {r : Csr} (h1 : 0x014 ≤ r.offset)
    (h2 : r.offset ≤ 0x048) (v : Word) : s.writeCsr r v = s.refuseAccess := by
  have hw : ∀ t, s.writeOperand t = s.refuseAccess := by simp [State.writeOperand, hb]
  cases r
  case id | caps | cmd | status | irqEn | nUsedLo | nUsedHi => simp [Csr.offset] at h1 h2
  all_goals exact hw _

/-- A legal word write of an operand register while busy (R189). -/
theorem step_of_operand_write_busy {s : State} {a v : Word} {o : Nat} {es : List Event} (hr : s.rstN = true)
    (hb : s.status.busy = true) (ha : a.toNat = s.build.blockBase + o) (h1 : 0x014 ≤ o) (h2 : o ≤ 0x048) (h4 : o % 4 = 0)
    (h : s.events = .bus (.write a .word v) :: es) : step s = .next (s.answered .okay 0).refuseAccess := by
  obtain ⟨r, rfl⟩ := exists_csr_of_offset (by omega) h4
  have hc : r ≠ .cmd := by
    rintro rfl
    exact absurd h1 (by decide)
  rw [step_of_register_write hc hr ha h, writeCsr_operand_busy (s := s.answered .okay 0) hb h1 h2]

/-- A legal write of the buffer window while busy (R63, R189). -/
theorem step_of_buffer_write_busy {s : State} {a v : Word} {z : Size} {b : Nat} {es : List Event} (hr : s.rstN = true)
    (hb : s.status.busy = true) (hl : s.LegalBuffer a z b) (h : s.events = .bus (.write a z v) :: es) :
    step s = .next (s.answered .okay 0).refuseAccess := by
  obtain ⟨ha, hin, hal⟩ := hl
  have hb' : (s.popped.respond .okay 0).status.busy = true := hb
  rw [step_of_write hr (ha.trans (Nat.add_assoc _ _ _)) (buffer_offset_lt hin) h, State.writeOffset,
    target_buffer_offset (s := s.popped) hin hal]
  simp only [State.writeBuffer, hb']
  rfl

/-- A write of N_USED or of a reserved offset, busy or not, is only answered (R38, R39, R46). -/
theorem step_of_write_above_operands {s : State} {a v : Word} {o : Nat} {es : List Event} (hr : s.rstN = true)
    (ha : a.toNat = s.build.blockBase + o) (h1 : 0x04C ≤ o) (h2 : o < 0x1000) (h4 : o % 4 = 0)
    (h : s.events = .bus (.write a .word v) :: es) : step s = .next (s.answered .okay 0) := by
  by_cases hres : 0x054 ≤ o
  · exact (reservedOffsetsAndBits.1 s es a v o hr ha hres h2 h4).2 h
  · exact readOnlyRegistersIgnoreWrites s es a v o hr ha (by omega) h

/-- Settles O45: CMD, the operand registers and the buffer window look at BUSY, and no other access does. -/
theorem busyRefusals : Obligations.BusyRefusals := by
  intro s es a v o hr hb ha
  refine ⟨?cmdOrOperand, ?buffer, fun ho h4 he => step_of_csr_read hr ha ho h4 he, ?status, ?irqEn, ?ignored⟩
  case cmdOrOperand =>
    rintro (rfl | ⟨h1, h2, h4⟩) he
    · exact (illegalWordIsRejectedOrRefused s es a v hr ha he).2 hb
    · exact step_of_operand_write_busy hr hb ha h1 h2 h4 he
  case buffer =>
    intro z ho hin hal
    have hl : s.LegalBuffer a z (o - 0x10000) := ⟨by omega, by omega, hal⟩
    exact ⟨fun he => (readsHaveNoSideEffect s es a z he).1 ⟨hr, hb, _, hl⟩, step_of_buffer_write_busy hr hb hl⟩
  case status =>
    rintro rfl he
    have hclear := statusWriteClears s es a v hr ha he
    rwa [hb] at hclear
  case irqEn =>
    rintro rfl he
    exact step_of_register_write (r := .irqEn) (by decide) hr ha he
  case ignored =>
    rintro (rfl | rfl | ⟨h1, h2, h4⟩) he
    · exact readOnlyRegistersIgnoreWrites s es a v _ hr ha (by decide) he
    · exact readOnlyRegistersIgnoreWrites s es a v _ hr ha (by decide) he
    · exact step_of_write_above_operands hr ha h1 h2 h4 he

end Sys2Proof.Machine

/-! PROOF. Reset and hazards (spec/70_reset_and_hazards.md): the reset edge (R210 to R213), and what the fairness premise of R226
gives: with it, however the agents are ordered, every accepted command completes; without it a command can stay busy. -/

namespace Sys2Proof.Machine

/- ### The reset edge -/

/-- After a reset every register but CAPS, which is the build's, reads what it reads in State.reset (R20, R210). -/
theorem csrRead_resetLow (s : State) {o : Nat} (ho : o ≠ 0x004) : s.resetLow.csrRead o = State.reset.csrRead o := by
  unfold State.csrRead
  cases hr : Csr.ofOffset o with
  | none => rfl
  | some r =>
    cases r with
    | caps => exact absurd (ofOffset_eq_some.mp hr) ho
    | _ => rfl

theorem resetRam_of_idle {s : State} (he : s.engine = .idle) : s.resetRam = s.ram := by simp only [State.resetRam, he]

theorem resetRam_of_run {s : State} {r : Run} (he : s.engine = .run r) :
    s.resetRam = Memory.storeBytes s.ram r.outOff.toNat (resetDraws s.draws r.outLen.toNat) := by
  simp only [State.resetRam, he]

@[simp] theorem length_resetDraws (start count : Nat) : (resetDraws start count).length = count := by simp [resetDraws]

/-- Settles O54: the edge gives State.reset but for the build, the buffer RAM and the model's own fields, and the RAM changes in
the abandoned output region alone. -/
theorem resetEdge : Obligations.ResetEdge := by
  obtain ⟨hid, -, hwidth, hzero, -⟩ := registersAfterReset
  refine ⟨fun s es he => ?low, fun s x es hr he => ?held, fun s es he => step_eq_perform_popped he⟩
  case low =>
    have hes : s.popped.events = es := by rw [State.popped, he]; rfl
    refine ⟨s.popped.resetLow, step_eq_perform_popped he, rfl, hes, rfl, rfl, rfl, rfl, rfl, rfl,
      (csrRead_resetLow _ (by decide)).trans hid, rfl, (csrRead_resetLow _ (by decide)).trans hwidth,
      fun o h0 h4 h18 => (csrRead_resetLow _ h4).trans (hzero o h0 h4 h18), fun hidle a => ?_, fun r hrun a ha => ?_⟩
    · exact State.ramByte_congr (s := s) (resetRam_of_idle (s := s.popped) hidle) a
    · exact State.ramByte_outside (s := s) (resetRam_of_run (s := s.popped) hrun) (by rwa [length_resetDraws])
  case held =>
    rw [step_of_bus he, transact_held (s := s.popped) hr]
    rfl

/- ### A host that polls for ever -/

/-- The host's read of STATUS (R101). -/
def pollEvent (b : Config.Build) : Event := .bus (.read (Build.address b 0x00C) .word)

/-- The state after a poll: only the answer on the bus changes, to none while the block is held in reset (R210). -/
def State.polled (s : State) : State :=
  { s with events := [], busRsp := if s.rstN then some { resp := .okay, data := s.status.word } else none }

theorem step_of_poll (s : State) : step (s.withEvents [pollEvent s.build]) = .next s.polled := by
  cases hr : s.rstN with
  | true =>
    rw [step_of_csr_read (s := s.withEvents [pollEvent s.build]) hr (toNat_address s.build (by decide)) (by decide)
      (by decide) rfl]
    rw [State.polled, if_pos hr]
    rfl
  | false =>
    rw [step_of_bus (s := s.withEvents [pollEvent s.build]) rfl,
      transact_held (s := (s.withEvents [pollEvent s.build]).popped) hr, State.polled, if_neg (by simp [hr])]
    rfl

/-- The run of a host that polls STATUS for ever from `s`: a poll after the first changes nothing. -/
def pollRun (s : State) : Nat → State
  | 0 => s
  | _ + 1 => s.polled

theorem pollRun_isRun (s : State) : IsRun (fun _ => pollEvent s.build) (pollRun s)
  | 0 => step_of_poll s
  | _ + 1 => step_of_poll s.polled

/-- Settles O59: no poll moves the engine. -/
theorem unfairRunStaysBusy : Obligations.UnfairRunStaysBusy := by
  intro s r hb he
  refine ⟨_, _, pollRun_isRun s, rfl, fun k => ⟨rfl, ?_⟩⟩
  cases k with
  | zero => exact ⟨hb, he⟩
  | succ k => exact ⟨hb, he⟩

/- ### The agents' turns -/

/-- The events of the engine and of the PRF core, which R226's fairness premise is about. -/
def Event.isAgent : Event → Bool
  | .engine => true
  | .reqReady => true
  | .prfAnswer => true
  | .rspValid => true
  | .bus _ => false
  | .resetLow => false
  | .resetHigh => false
  | .foreignBeat _ => false

theorem Event.isAgent_cases {e : Event} (ha : e.isAgent = true) :
    e = .engine ∨ e = .reqReady ∨ e = .prfAnswer ∨ e = .rspValid := by
  cases e <;> simp [Event.isAgent] at ha ⊢

/-- What an agent's turn does to a state in Run: it moves the record or the port on, or completes the command (R130). -/
inductive Turn (s : State) (r : Run) : State → Prop
  | moved (r' : Run) (p : PrfPort) (same : r.SameCommand r') : Turn s r { s with engine := .run r', port := p }
  | completed (between : r.waiting = false) (last : r.n < r.i) : Turn s r (s.complete r)

theorem turn_of_perform {s t : State} {r : Run} {e : Event} (he : s.engine = .run r) (ha : e.isAgent = true)
    (h : s.perform e = .next t) : Turn s r t := by
  have port {t : State} (ht : t = { s with port := t.port }) : Turn s r t := by
    rw [ht, show ({ s with port := t.port } : State) = { s with engine := .run r, port := t.port } by rw [← he]]
    exact .moved r t.port rfl
  rcases Event.isAgent_cases ha with rfl | rfl | rfl | rfl
  · have hx := engineStep_effect s
    rw [show s.engineStep = t from Host.Outcome.next.inj h] at hx
    cases hx with
    | none => exact port rfl
    | issue q hq => rw [he] at hq; cases hq; exact .moved _ _ rfl
    | receive q hq => rw [he] at hq; cases hq; exact .moved _ _ rfl
    | complete q hq hw hi => rw [he] at hq; cases hq; exact .completed hw hi
  · cases h; exact port (portEvent_spec _ _ (.inl rfl))
  · cases h; exact port (portEvent_spec _ _ (.inr (.inl rfl)))
  · cases h; exact port (portEvent_spec _ _ (.inr (.inr rfl)))

/- ### The turns a command still needs -/

/-- The turns from Receive of the iteration in progress to Complete. -/
def Run.turnsFromReceive (b : Config.Build) (r : Run) : List Event := .engine :: (r.rounds b (r.n - r.i) ++ [.engine])

/-- The agents' turns from a state to the completion of its command, in the only order they are enabled in: the schedule of R226
from where the command stands. -/
def State.turnsLeft (s : State) : List Event :=
  match s.engine with
  | .idle => []
  | .run r =>
    if r.waiting then
      if s.port.core ++ s.port.req = [] then
        List.replicate s.port.rsp.length .rspValid ++ r.turnsFromReceive s.build
      else
        List.replicate s.port.req.length .reqReady
          ++ .prfAnswer :: (List.replicate (digestBytes s.build r.alg) .rspValid ++ r.turnsFromReceive s.build)
    else r.rounds s.build (r.n + 1 - r.i) ++ [.engine]

theorem turnsLeft_idle {s : State} (he : s.engine = .idle) : s.turnsLeft = [] := by simp only [State.turnsLeft, he]

theorem turnsLeft_between {s : State} {r : Run} (he : s.engine = .run r) (hw : r.waiting = false) :
    s.turnsLeft = r.rounds s.build (r.n + 1 - r.i) ++ [.engine] := by simp [State.turnsLeft, he, hw]

theorem turnsLeft_sending {s : State} {r : Run} (he : s.engine = .run r) (hw : r.waiting = true)
    (hp : s.port.core ++ s.port.req ≠ []) : s.turnsLeft = List.replicate s.port.req.length .reqReady
      ++ .prfAnswer :: (List.replicate (digestBytes s.build r.alg) .rspValid ++ r.turnsFromReceive s.build) := by
  simp only [State.turnsLeft, he, hw, if_true, if_neg hp]

theorem turnsLeft_receiving {s : State} {r : Run} (he : s.engine = .run r) (hw : r.waiting = true)
    (hcore : s.port.core = []) (hreq : s.port.req = []) :
    s.turnsLeft = List.replicate s.port.rsp.length .rspValid ++ r.turnsFromReceive s.build := by
  simp [State.turnsLeft, he, hw, hcore, hreq]

/-- What is left depends on the build, the engine and the port alone. -/
theorem turnsLeft_congr {s t : State} (hb : t.build = s.build) (he : t.engine = s.engine) (hp : t.port = s.port) :
    t.turnsLeft = s.turnsLeft := by simp only [State.turnsLeft, hb, he, hp]

/-- All rounds are the same events, since all messages of a run have one length (R131). -/
theorem round_congr (b : Config.Build) (r : Run) (i j : Nat) : r.round b i = r.round b j := by simp [Run.round]

theorem round_append (b : Config.Build) (r : Run) (i : Nat) (l : List Event) :
    r.round b i ++ l = .engine :: (List.replicate (requestBeats (r.request i)).length .reqReady
      ++ .prfAnswer :: (List.replicate (digestBytes b r.alg) .rspValid ++ .engine :: l)) := by
  simp [Run.round, Run.request]

theorem rounds_succ (b : Config.Build) (r : Run) (k i : Nat) : r.rounds b (k + 1) = r.round b i ++ r.rounds b k := by
  have hshift (j : Nat) : r.round b (j + 1 + 1) = r.round b (j + 1) := round_congr b r _ _
  rw [round_congr b r i 1]
  simp [Run.rounds, List.range_succ_eq_map, List.flatMap_map, hshift]

/-- The beats of a run's requests: there is at least the counter's byte (R110). -/
theorem requestBeats_ne_nil (r : Run) (i : Nat) : requestBeats (r.request i) ≠ [] := by
  have hm := List.length_pos_iff.mpr (message_ne_nil r i)
  rw [← List.length_pos_iff, length_requestBeats]
  exact Nat.add_pos_right _ hm

/-- In the invariant a port with nothing sent or taken of a request is not sending one. -/
theorem Run.Sending.beats_ne_nil {r : Run} {p : PrfPort} (h : r.Sending p) : p.core ++ p.req ≠ [] := by
  rw [h.1]
  exact requestBeats_ne_nil r r.i

/- ### Each turn is the first of those left -/

theorem turnsLeft_complete {s : State} {r : Run} (he : s.engine = .run r) (hw : r.waiting = false) (hi : r.n < r.i) :
    s.turnsLeft = .engine :: (s.complete r).turnsLeft := by
  rw [turnsLeft_between he hw, turnsLeft_idle (State.complete_engine s r), Nat.sub_eq_zero_of_le hi]
  rfl

section
variable {s : State} (h : s.Inv)
include h

theorem State.Inv.waiting_cases {r : Run} (he : s.engine = .run r) (hw : r.waiting = true) :
    r.i ≤ r.n ∧ (r.Sending s.port ∨ r.Receiving s.build s.port) := by
  have hp := h.port
  rwa [he, portOk_waiting hw] at hp

theorem State.Inv.port_between {r : Run} (he : s.engine = .run r) (hw : r.waiting = false) : s.port = PrfPort.quiet := by
  have hp := h.port
  rwa [he, portOk_between hw] at hp

theorem turnsLeft_issue {r : Run} (he : s.engine = .run r) (hw : r.waiting = false) (hi : r.i ≤ r.n) :
    s.turnsLeft = .engine :: (s.issue r).turnsLeft := by
  have hcore : s.port.core = [] := by rw [h.port_between he hw]; rfl
  have hbeats : (s.issue r).port.core ++ (s.issue r).port.req ≠ [] := by
    simpa [hcore] using requestBeats_ne_nil r r.i
  rw [turnsLeft_between he hw, turnsLeft_sending (State.issue_engine s r) rfl hbeats,
    Nat.sub_add_comm hi, rounds_succ _ _ _ r.i, List.append_assoc, round_append]
  rfl

theorem turnsLeft_receive {r : Run} (he : s.engine = .run r) (hw : r.waiting = true) (hl : s.port.gotLast = true) :
    s.turnsLeft = .engine :: (s.receive r).turnsLeft := by
  obtain ⟨-, ⟨-, -, -, hl'⟩ | ⟨hreq, hcore, rest, -, hrsp, hrest⟩⟩ := h.waiting_cases he hw
  · rw [hl] at hl'
    cases hl'
  · obtain rfl : rest = [] := by simpa [hl] using hrest
    rw [turnsLeft_receiving he hw hcore hreq, hrsp, turnsLeft_between (State.receive_engine s r) rfl,
      Nat.add_sub_add_right]
    rfl

theorem turnsLeft_takeRequestBeat {b : ReqBeat} {bs : List ReqBeat} (hreq : s.port.req = b :: bs) :
    s.turnsLeft = .reqReady :: s.takeRequestBeat.turnsLeft := by
  rcases portOk_cases h.port with hq | ⟨r, he, hw, -, hsend | ⟨hnone, -⟩⟩
  · simp [hq, PrfPort.quiet] at hreq
  · have ht := takeRequestBeat_of_cons hreq
    rw [turnsLeft_sending he hw hsend.beats_ne_nil,
      turnsLeft_sending (s := s.takeRequestBeat) (by rw [ht]; exact he) hw (by simp [ht]), ht, hreq]
    rfl
  · simp [hreq] at hnone

theorem turnsLeft_prfAnswer {q : PrfRequest} (hq : assembleRequest s.port.core = some q) :
    s.turnsLeft = .prfAnswer :: s.prfAnswer.turnsLeft := by
  rcases portOk_cases h.port with hp | ⟨r, he, hw, -, hsend | ⟨-, hcore, -⟩⟩
  · simp [hp, PrfPort.quiet, assembleRequest] at hq
  · obtain ⟨hreq, rfl⟩ := assembleRequest_of_append (message_ne_nil r r.i) hsend.1 hq
    have ht := prfAnswer_of_some hq
    rw [turnsLeft_sending he hw hsend.beats_ne_nil,
      turnsLeft_receiving (s := s.prfAnswer) (by rw [ht]; exact he) hw (by rw [ht]) (by rw [ht]; exact hreq), ht, hreq]
    simp [Run.request]
  · simp [hcore, assembleRequest] at hq

theorem turnsLeft_takeResponseBeat {b : RspBeat} {bs : List RspBeat} (hrsp : s.port.rsp = b :: bs)
    (hready : s.prfRspReady = true) : s.turnsLeft = .rspValid :: s.takeResponseBeat.turnsLeft := by
  obtain ⟨r, he, hw, hreq, -⟩ := prfRspReady_eq_true.mp hready
  obtain ⟨-, ⟨-, hnone, -⟩ | ⟨-, hcore, -⟩⟩ := h.waiting_cases he hw
  · simp [hrsp] at hnone
  · have ht := takeResponseBeat_of_ready hrsp hready
    rw [turnsLeft_receiving he hw hcore hreq, turnsLeft_receiving (s := s.takeResponseBeat) (by rw [ht]; exact he) hw
      (by rw [ht]; exact hcore) (by rw [ht]; exact hreq), ht, hrsp]
    rfl

/-- An agent's turn that is enabled is the first of those left, and leaves the others. -/
theorem turnsLeft_of_perform {t : State} {e : Event} (ha : e.isAgent = true) (hn : s.enabled e = true)
    (hp : s.perform e = .next t) : s.turnsLeft = e :: t.turnsLeft := by
  rcases Event.isAgent_cases ha with rfl | rfl | rfl | rfl <;> cases hp
  · rcases engineStep_of_engineMove s with ⟨hm, -⟩ | ⟨r, he, ⟨-, hw, hi, ht⟩ | ⟨-, hw, hl, ht⟩ | ⟨-, hw, hi, ht⟩⟩
    · simp [State.enabled, hm] at hn
    · rw [ht]; exact turnsLeft_issue h he hw hi
    · rw [ht]; exact turnsLeft_receive h he hw hl
    · rw [ht]; exact turnsLeft_complete he hw hi
  · obtain ⟨b, bs, hreq⟩ := exists_req_of_prfReqValid hn
    exact turnsLeft_takeRequestBeat h hreq
  · obtain ⟨q, hq⟩ := Option.isSome_iff_exists.mp hn
    exact turnsLeft_prfAnswer h hq
  · obtain ⟨hready, hne⟩ := Bool.and_eq_true_iff.mp hn
    obtain ⟨b, bs, hrsp⟩ := List.exists_cons_of_ne_nil (by simpa using hne : s.port.rsp ≠ [])
    exact turnsLeft_takeResponseBeat h hrsp hready

/-- While a command is in progress some agent has a turn (R136, R226). -/
theorem exists_enabled_agent {r : Run} (he : s.engine = .run r) : ∃ e : Event, e.isAgent = true ∧ s.enabled e = true := by
  cases hw : r.waiting with
  | false =>
    refine ⟨.engine, rfl, ?_⟩
    by_cases hi : r.i ≤ r.n <;> simp [State.enabled, State.engineMove, he, hw, hi]
  | true =>
    obtain ⟨-, ⟨hbeats, -⟩ | ⟨hreq, -, rest, -, hrsp, hlast⟩⟩ := h.waiting_cases he hw
    · cases hreq : s.port.req with
      | cons b bs => exact ⟨.reqReady, rfl, by simp [State.enabled, State.prfReqValid, hreq]⟩
      | nil =>
        rw [hreq, List.append_nil] at hbeats
        refine ⟨.prfAnswer, rfl, ?_⟩
        rw [State.enabled, hbeats, assembleRequest_requestBeats (message_ne_nil r r.i)]
        rfl
    · cases rest with
      | nil => exact ⟨.engine, rfl, by simp [State.enabled, State.engineMove, he, hw, hlast]⟩
      | cons d ds =>
        exact ⟨.rspValid, rfl, by simp [State.enabled, State.prfRspReady, he, hw, hreq, hrsp, hlast, responseBeats]⟩

/-- While a command is in progress the first turn left is enabled, is taken without fail, and leaves the others. -/
theorem exists_turn {r : Run} (he : s.engine = .run r) :
    ∃ e t, e.isAgent = true ∧ s.enabled e = true ∧ s.perform e = .next t ∧ s.turnsLeft = e :: t.turnsLeft := by
  obtain ⟨e, ha, hn⟩ := exists_enabled_agent h he
  obtain ⟨t, hp⟩ : ∃ t, s.perform e = .next t := by
    rcases Event.isAgent_cases ha with rfl | rfl | rfl | rfl <;> exact ⟨_, rfl⟩
  exact ⟨e, t, ha, hn, hp, turnsLeft_of_perform h ha hn hp⟩

end

/- ### One schedule -/

theorem Run.SameCommand.trans {p q r : Run} (h₁ : p.SameCommand q) (h₂ : q.SameCommand r) : p.SameCommand r := by
  rw [Run.SameCommand] at h₁ h₂ ⊢
  rw [h₂, h₁]

/-- The output does not depend on how far the command has come (R133). -/
theorem Run.SameCommand.output_eq {p q : Run} (h : p.SameCommand q) (b : Config.Build) : q.output b = p.output b := by
  rw [h]; rfl

theorem Run.SameCommand.outOff_eq {p q : Run} (h : p.SameCommand q) : q.outOff = p.outOff := by rw [h]

theorem Run.SameCommand.n_eq {p q : Run} (h : p.SameCommand q) : q.n = p.n := by rw [h]

/-- The state once the command of record `r` in progress in `s` has completed, with `es` still to come (R134). -/
def State.afterCompletion (s : State) (r : Run) (es : List Event) : State :=
  { s with
    ram := Memory.storeBytes s.ram r.outOff.toNat (r.output s.build)
    status := s.status.completed, engine := .idle, port := PrfPort.quiet, events := es }

/-- Complete in the invariant stores the output and leaves the port as it is between iterations (R134). -/
theorem complete_eq_afterCompletion {s : State} {r : Run} (h : s.Inv) (he : s.engine = .run r) (hw : r.waiting = false)
    (hi : r.n < r.i) : s.complete r = s.afterCompletion r s.events := by
  rw [State.complete, State.afterCompletion, (result_eq_output (h.run r he) hi).1, ← h.port_between he hw]

/-- The turns left, taken one after the other, complete the command. -/
theorem run_turnsLeft {s : State} {r : Run} {es l : List Event} (h : s.Inv) (he : s.engine = .run r) (hl : s.turnsLeft = l)
    (hev : s.events = l ++ es) : Host.Core.run core l.length s = .next (s.afterCompletion r es) := by
  induction l generalizing s r with
  | nil =>
    obtain ⟨e, t, -, -, -, hcons⟩ := exists_turn h he
    rw [hl] at hcons
    cases hcons
  | cons e l ih =>
    have hpop : s.popped.Inv := h.withEvents s.events.tail
    obtain ⟨e', t, ha, -, hp, hcons⟩ := exists_turn hpop he
    obtain ⟨rfl, rfl⟩ := List.cons.inj (hl.symm.trans hcons)
    have hes : s.events.tail = t.turnsLeft ++ es := by rw [hev]; rfl
    have hstep : step s = .next t := (step_eq_perform_popped hev).trans hp
    rw [List.length_cons, run_succ hstep]
    have ht := everyStepKeepsTheInvariant s t h hstep
    cases turn_of_perform (s := s.popped) he ha hp with
    | moved r' p hsame =>
      rw [ih ht rfl rfl hes, State.afterCompletion, hsame.output_eq, hsame.outOff_eq]
      rfl
    | completed hw hi =>
      rw [turnsLeft_idle (State.complete_engine _ r)] at hes ⊢
      rw [complete_eq_afterCompletion hpop he hw hi, show s.popped.events = es from hes]
      rfl

/-- The acceptance of a command in the invariant starts its record before the first request (R128). -/
theorem accepted_of_exec {s t : State} {i : Instr} {r : Run} (h : s.Inv) (hr : s.rstN = true) (hb : s.status.busy = false)
    (hx : exec i s = .next t) (he : t.engine = .run r) :
    t = s.accept r ∧ t.Inv ∧ r.waiting = false ∧ r.i = 1 := by
  have hidle := h.status.idle_of_not_busy hb
  rw [exec_eq_submit] at hx
  cases hx
  rcases submit_cases s (commandPlan s i) with ⟨hb', -⟩ | ⟨-, c, -, ht⟩ | ⟨-, q, hp, ht⟩
  · rw [hb] at hb'
    cases hb'
  · rw [ht, State.raiseError_engine, hidle] at he
    cases he
  · rw [ht] at he ⊢
    cases he
    obtain ⟨hok, hw, h1, -⟩ := run_of_plan hp
    have hst : (s.accept r).StatusOk := by constructor <;> simp [Status.accepted]
    exact ⟨rfl, State.Inv.of_run rfl hst ⟨h.memory.wf, h.memory.inside⟩ hok
      ((portOk_between hw).mpr (h.port_quiet hidle)) hr, hw, h1⟩

/-- The turns left at an acceptance are the schedule of R226. -/
theorem turnsLeft_accepted {s : State} {r : Run} (he : s.engine = .run r) (hw : r.waiting = false) (h1 : r.i = 1) :
    s.turnsLeft = r.schedule s.build := by
  rw [turnsLeft_between he hw, h1, Nat.add_sub_cancel, Run.schedule]

/-- Settles O30: the schedule is the turns left at the acceptance. -/
theorem fairScheduleCompletes : Obligations.FairScheduleCompletes := by
  intro s t i r es hs hr hb hx he
  obtain ⟨rfl, ht, hw, h1⟩ := accepted_of_exec hs hr hb hx he
  have hport := ht.port_between he hw
  have hrun := run_turnsLeft (s := (s.accept r).withEvents (r.schedule s.build ++ es)) (ht.withEvents _) he
    (turnsLeft_accepted he hw h1) rfl
  refine ⟨_, hrun, rfl, ?_⟩
  rw [State.afterCompletion, ← hport]
  rfl

/- ### Every fair run -/

theorem BusEffect.port_eq {s t : State} {x : Transaction} (hx : BusEffect s x t) : t.port = s.port := by
  cases hx with
  | register a v r =>
    obtain ⟨-, -, -, -, -, hp, -⟩ := writeCsr_spec (s.respond .okay 0) r v
    exact hp
  | command a v =>
    obtain ⟨-, -, hp, -⟩ := submit_frame (s.respond .okay 0) (wordPlan (s.respond .okay 0) v)
    exact hp
  | _ => rfl

/-- The build, the engine and the port are as they were: what decides whose turn it is. -/
structure State.SameStage (s t : State) : Prop where
  build : t.build = s.build
  engine : t.engine = s.engine
  port : t.port = s.port

/-- While busy, a step that is no enabled agent's turn and no reset leaves the command where it stands (R66). -/
theorem sameStage_of_step {s t : State} {e : Event} {es : List Event} (hev : s.events = e :: es)
    (hb : s.status.busy = true) (h : step s = .next t) (hlow : e ≠ .resetLow)
    (hn : e.isAgent = true → s.enabled e = false) : s.SameStage t := by
  have still (ha : e.isAgent = true) : s.SameStage t := by
    have hf : ∀ b, e ≠ .foreignBeat b := by rintro b rfl; cases ha
    rw [step_of_not_enabled hev (hn ha) hf] at h
    cases h
    exact ⟨rfl, rfl, rfl⟩
  cases e with
  | bus x =>
    obtain ⟨u, hu, hx⟩ := transact_effect s.popped x
    rw [step_of_bus hev, hu] at h
    cases h
    obtain ⟨hkept, -, he⟩ := hx.inputsKept hb
    exact ⟨by rw [hkept]; rfl, he, hx.port_eq⟩
  | resetHigh =>
    rw [step_eq_perform_popped hev] at h
    cases h
    exact ⟨rfl, rfl, rfl⟩
  | resetLow => exact absurd rfl hlow
  | foreignBeat b =>
    rw [contractBreachIsRefused s b es hev] at h
    cases h
  | _ => exact still rfl

/-- While busy, only the engine's own event and a reset move the engine (R130). -/
theorem engine_of_step {s t : State} {e : Event} {es : List Event} (hev : s.events = e :: es)
    (hb : s.status.busy = true) (h : step s = .next t) (hlow : e ≠ .resetLow) (hne : e ≠ .engine) :
    t.engine = s.engine := by
  cases step_effect h with
  | idle => rfl
  | bus x es _ _ hx => exact (hx.inputsKept hb).2.2
  | engine es he => rw [hev] at he; cases he; exact absurd rfl hne
  | reqReady => rw [portEvent_spec _ _ (.inl rfl)]; rfl
  | prfAnswer => rw [portEvent_spec _ _ (.inr (.inl rfl))]; rfl
  | rspValid => rw [portEvent_spec _ _ (.inr (.inr rfl))]; rfl
  | resetLow es he => rw [hev] at he; cases he; exact absurd rfl hlow
  | resetHigh => rfl

theorem State.Inv.busy_eq_false_iff {s : State} (h : s.Inv) : s.status.busy = false ↔ s.engine = .idle := by
  rw [← Bool.not_eq_true, h.status.busy_iff_run, not_not]

theorem FairRun.weaklyFairTo {σ : Nat → Event} {x : Nat → State} (h : FairRun σ x) {e : Event} (ha : e.isAgent = true) :
    WeaklyFairTo σ x e := by
  rcases Event.isAgent_cases ha with rfl | rfl | rfl | rfl
  · exact h.engine
  · exact h.takes
  · exact h.answers
  · exact h.delivers

section
variable {σ : Nat → Event} {x : Nat → State} (hrun : IsRun σ x) (hlow : ∀ k, σ k ≠ .resetLow) (h0 : (x 0).Inv)

include hrun h0 in
theorem inv_of_isRun (k : Nat) : (x k).Inv := by
  induction k with
  | zero => exact h0
  | succ k ih => exact everyStepKeepsTheInvariant _ _ (ih.withEvents _) (hrun k)

include hrun h0 in
/-- An agent's enabled turn in a run is one less left. -/
theorem turnsLeft_of_turn {k : Nat} (ha : (σ k).isAgent = true) (hn : (x k).enabled (σ k) = true) :
    (x k).turnsLeft.length = (x (k + 1)).turnsLeft.length + 1 := by
  have hinv := (inv_of_isRun hrun h0 k).withEvents []
  have hn' : ((x k).withEvents []).enabled (σ k) = true := (enabled_congr (s := x k) rfl rfl _).trans hn
  exact congrArg List.length (turnsLeft_of_perform hinv ha hn' (hrun.step k))

include hrun hlow in
/-- A step of the run, while busy, is an agent's enabled turn or leaves the command where it stands. -/
theorem turn_or_sameStage {k : Nat} (hb : (x k).status.busy = true) :
    ((σ k).isAgent = true ∧ (x k).enabled (σ k) = true) ∨ (x k).SameStage (x (k + 1)) := by
  by_cases hturn : (σ k).isAgent = true ∧ (x k).enabled (σ k) = true
  · exact .inl hturn
  · refine .inr ?_
    obtain ⟨hbuild, he, hp⟩ := sameStage_of_step (s := (x k).withEvents [σ k]) rfl hb (hrun k) (hlow k) fun ha =>
      (enabled_congr (s := x k) rfl rfl _).trans (Bool.eq_false_iff.mpr fun hn => hturn ⟨ha, hn⟩)
    exact ⟨hbuild, he, hp⟩

include hlow h0 in
/-- A fair run does not stay busy for ever: where the turns left are fewest no agent takes its turn, so one stays enabled, and
fairness has it taken. -/
theorem exists_not_busy (hf : FairRun σ x) : ∃ k, (x k).status.busy = false := by
  by_contra hcon
  have hbusy (k : Nat) : (x k).status.busy = true := Bool.not_eq_false _ |>.mp fun h => hcon ⟨k, h⟩
  have hinv := inv_of_isRun hf.run h0
  obtain ⟨k, hmin⟩ : ∃ k, ∀ j, (x k).turnsLeft.length ≤ (x j).turnsLeft.length :=
    ⟨_, fun j => Function.argmin_le (fun k => (x k).turnsLeft.length) j⟩
  have stays (d : Nat) : (x k).SameStage (x (k + d)) := by
    induction d with
    | zero => exact ⟨rfl, rfl, rfl⟩
    | succ d ih =>
      rcases turn_or_sameStage hf.run hlow (hbusy (k + d)) with ⟨ha, hn⟩ | hsame
      · have h1 := turnsLeft_of_turn hf.run h0 ha hn
        have h2 := congrArg List.length (turnsLeft_congr ih.build ih.engine ih.port)
        have h3 := hmin (k + d + 1)
        omega
      · exact ⟨hsame.build.trans ih.build, hsame.engine.trans ih.engine, hsame.port.trans ih.port⟩
  obtain ⟨r, he⟩ : ∃ r, (x k).engine = .run r := by
    cases he : (x k).engine with
    | idle => exact absurd ((hinv k).busy_eq_false_iff.mpr he) (by rw [hbusy k]; decide)
    | run r => exact ⟨r, rfl⟩
  obtain ⟨e, ha, hn⟩ := exists_enabled_agent (hinv k) he
  have enabled (j : Nat) (hj : k ≤ j) : (x j).enabled e = true := by
    obtain ⟨d, rfl⟩ := Nat.exists_eq_add_of_le hj
    exact (enabled_congr (stays d).engine (stays d).port e).trans hn
  obtain ⟨j, hj, rfl⟩ := hf.weaklyFairTo ha k enabled
  have h1 := turnsLeft_of_turn hf.run h0 ha (enabled j hj)
  obtain ⟨d, rfl⟩ := Nat.exists_eq_add_of_le hj
  have h2 := congrArg List.length (turnsLeft_congr (stays d).build (stays d).engine (stays d).port)
  have h3 := hmin (k + d + 1)
  omega

/- ### The steps of a command, counted -/

/-- The record `q` stands where `issues` Issue steps and `receives` Receive steps have brought it from iteration 1 (R130). -/
structure Run.StandsAfter (q : Run) (issues receives : Nat) : Prop where
  issued : issues + 1 = q.i + bitValue q.waiting
  received : receives + 1 = q.i

/-- After `k` events the command of the record `r`, accepted in `x 0`, is in progress at the record `q`, and the engine's steps
so far are those that bring it there. -/
structure Progress (σ : Nat → Event) (x : Nat → State) (r : Run) (k : Nat) (q : Run) : Prop where
  record : (x k).engine = .run q
  same : r.SameCommand q
  ram : (x k).ram = (x 0).ram
  build : (x k).build = (x 0).build
  stands : q.StandsAfter (movesBefore σ x .issue k) (movesBefore σ x .receive k)
  completes : movesBefore σ x .complete k = 0

theorem progress_zero {r : Run} (he : (x 0).engine = .run r) (hw : r.waiting = false) (h1 : r.i = 1) :
    Progress σ x r 0 r :=
  ⟨he, rfl, rfl, rfl, ⟨by rw [h1, hw]; rfl, by rw [h1]; rfl⟩, rfl⟩

theorem movesBefore_of_other {k : Nat} (hσ : σ k ≠ .engine) (m : EngineMove) :
    movesBefore σ x m (k + 1) = movesBefore σ x m k := by simp [movesBefore, hσ]

theorem movesBefore_of_engine {k : Nat} (hσ : σ k = .engine) (m : EngineMove) :
    movesBefore σ x m (k + 1) = movesBefore σ x m k + if (x k).engineMove = some m then 1 else 0 := by
  simp [movesBefore, hσ]

include hrun hlow in
/-- A step that leaves the engine in Run moves the record on as it counts, and is no Complete (R130). -/
theorem moves_of_step {k : Nat} {q q' : Run} (hb : (x k).status.busy = true) (he : (x k).engine = .run q)
    (he' : (x (k + 1)).engine = .run q')
    (h : q.StandsAfter (movesBefore σ x .issue k) (movesBefore σ x .receive k)) :
    q'.StandsAfter (movesBefore σ x .issue (k + 1)) (movesBefore σ x .receive (k + 1)) ∧
      movesBefore σ x .complete (k + 1) = movesBefore σ x .complete k := by
  obtain ⟨hissued, hreceived⟩ := h
  by_cases hσ : σ k = .engine
  · have hx : x (k + 1) = ((x k).withEvents []).engineStep := by
      have hstep := hrun.step k
      rw [hσ] at hstep
      exact (Host.Outcome.next.inj hstep).symm
    have move (m : EngineMove) := movesBefore_of_engine (x := x) hσ m
    rcases engineStep_of_engineMove ((x k).withEvents []) with
      ⟨hm, ht⟩ | ⟨p, hp, ⟨hm, hw, -, ht⟩ | ⟨hm, hw, -, ht⟩ | ⟨-, -, -, ht⟩⟩ <;> rw [hx, ht] at he'
    · obtain rfl : q = q' := Engine.run.inj (he.symm.trans he')
      simp only [move, show (x k).engineMove = none from hm]
      exact ⟨⟨hissued, hreceived⟩, rfl⟩
    · obtain rfl : q = p := Engine.run.inj (he.symm.trans hp)
      cases he'
      simp only [move, show (x k).engineMove = some .issue from hm]
      exact ⟨⟨by simpa [hw, bitValue] using hissued, hreceived⟩, rfl⟩
    · obtain rfl : q = p := Engine.run.inj (he.symm.trans hp)
      cases he'
      simp only [move, show (x k).engineMove = some .receive from hm]
      exact ⟨⟨by simpa [hw, bitValue] using hissued, by simpa using hreceived⟩, rfl⟩
    · cases he'
  · have hsame : (x (k + 1)).engine = (x k).engine :=
      engine_of_step (s := (x k).withEvents [σ k]) rfl hb (hrun k) (hlow k) hσ
    obtain rfl : q' = q := Engine.run.inj (he'.symm.trans (hsame.trans he))
    simp only [movesBefore_of_other hσ]
    exact ⟨⟨hissued, hreceived⟩, trivial⟩

include hrun hlow in
theorem Progress.succ {r q q' : Run} {k : Nat} (h : Progress σ x r k q) (hb : (x k).status.busy = true)
    (he' : (x (k + 1)).engine = .run q') : Progress σ x r (k + 1) q' := by
  obtain ⟨he, hsame, hram, hbuild, hstands, hcomplete⟩ := h
  obtain ⟨hkept, -, hsame'⟩ := step_inputsKept (s := (x k).withEvents [σ k]) hb he (hrun k) he'
  obtain ⟨hstands', hcomplete'⟩ := moves_of_step hrun hlow hb he he' hstands
  exact ⟨he', hsame.trans hsame', by rw [hkept]; exact hram, by rw [hkept]; exact hbuild, hstands',
    hcomplete'.trans hcomplete⟩

include hrun hlow h0 in
/-- As long as the run has been busy, the command has only moved on. -/
theorem exists_progress {r : Run} (hstart : Progress σ x r 0 r) {k : Nat} (hbusy : ∀ j ≤ k, (x j).status.busy = true) :
    ∃ q, Progress σ x r k q := by
  induction k with
  | zero => exact ⟨r, hstart⟩
  | succ k ih =>
    obtain ⟨q, hq⟩ := ih fun j hj => hbusy j (by omega)
    cases he : (x (k + 1)).engine with
    | run q' => exact ⟨q', hq.succ hrun hlow (hbusy k (by omega)) he⟩
    | idle =>
      have hidle := (inv_of_isRun hrun h0 (k + 1)).busy_eq_false_iff.mpr he
      rw [hbusy (k + 1) le_rfl] at hidle
      cases hidle

include hrun hlow h0 in
/-- The step that ends BUSY is Complete: all iterations have been issued and received, and the output is written (R134). -/
theorem Progress.completed {r q : Run} {k : Nat} (h : Progress σ x r k q) (hidle : (x (k + 1)).status.busy = false) :
    x (k + 1) = ((x k).withEvents []).afterCompletion r [] ∧ movesBefore σ x .issue (k + 1) = r.n ∧
      movesBefore σ x .receive (k + 1) = r.n ∧ movesBefore σ x .complete (k + 1) = 1 := by
  obtain ⟨he, hsame, -, -, ⟨hissued, hreceived⟩, hcomplete⟩ := h
  have hinv := (inv_of_isRun hrun h0 k).withEvents [σ k]
  have hb : (x k).status.busy = true := hinv.status.busy_of_run he
  obtain ⟨-, hfall⟩ := busyChangesOnlyByAcceptanceCompletionReset _ _ (hrun k)
  rcases hfall hb hidle with ⟨es, hev, hdone, -⟩ | ⟨es, hev⟩
  swap
  · exact absurd (List.cons.inj hev).1 (hlow k)
  have hσ : σ k = .engine := (List.cons.inj hev).1
  obtain ⟨p, hp, hi, ht⟩ := complete_of_done_rises (hinv.status.clear_while_busy hb).1 (hrun k) hdone
  obtain rfl : q = p := Engine.run.inj (he.symm.trans hp)
  have hw : q.waiting = false := by
    cases hw : q.waiting with
    | false => rfl
    | true => have := (hinv.waiting_cases he hw).1; omega
  have hmove : (x k).engineMove = some .complete := by simp [State.engineMove, he, hw, Nat.not_le.mpr hi]
  have hlast := (hinv.run q he).bounded
  have hn := hsame.n_eq
  rw [hw, show bitValue false = 0 from rfl] at hissued
  simp only [movesBefore_of_engine hσ, hmove, hcomplete]
  refine ⟨?_, show _ + 0 = _ by omega, show _ + 0 = _ by omega, rfl⟩
  rw [ht, complete_eq_afterCompletion (s := ((x k).withEvents [σ k]).popped) (hinv.withEvents []) he hw hi,
    State.afterCompletion, hsame.output_eq, hsame.outOff_eq]
  rfl

end

/-- Settles O58: a fair run is not busy for ever, and the step that ends its being busy is Complete. -/
theorem fairRunCompletes : Obligations.FairRunCompletes := by
  intro s i r σ x hs hr hb hx he hf hlow
  obtain ⟨haccept, h0, hw, h1⟩ := accepted_of_exec hs hr hb hx he
  have hend := exists_not_busy hlow h0 hf
  have hfirst : (x (Nat.find hend)).status.busy = false := Nat.find_spec hend
  obtain ⟨k, hk⟩ : ∃ k, Nat.find hend = k + 1 := by
    refine Nat.exists_eq_succ_of_ne_zero fun hz => ?_
    rw [hz, h0.status.busy_of_run he] at hfirst
    cases hfirst
  have hbusy : ∀ j ≤ k, (x j).status.busy = true := fun j hj =>
    Bool.not_eq_false _ |>.mp (Nat.find_min hend (by omega))
  rw [hk] at hfirst
  obtain ⟨q, hq⟩ := exists_progress hf.run hlow h0 (progress_zero he hw h1) hbusy
  obtain ⟨hlast, hissues, hreceives, hcompletes⟩ := hq.completed hf.run hlow h0 hfirst
  have hram : (x k).ram = s.ram := by rw [hq.ram, haccept]; rfl
  have hbuild : (x k).build = s.build := by rw [hq.build, haccept]; rfl
  refine ⟨k, hbusy, hfirst, by rw [hlast]; rfl, by rw [hlast]; rfl, ?_, hissues, hreceives, hcompletes⟩
  rw [hlast, ← hram, ← hbuild]
  rfl

end Sys2Proof.Machine
